-- ==== Sys2Proof/Word.lean ====
section
/-! DEFINITION. The word types of the block, one per width that the spec gives (00_scope R5, R7).
All quantities are unsigned; bit 0 of every vector is its least significant bit (R7, R8). -/

namespace Sys2Proof

/-- A symbol: `SYM_W` = 8 bits, ordered as an unsigned integer (00_scope R5, R9). -/
abbrev Symbol := BitVec 8

/-- An occurrence count held in `FREQ`: `FREQ_W` = 32 bits (00_scope R5, 10_state R23). -/
abbrev Count := BitVec 32

/-- A node's frequency inside the builder: `NODE_FREQ_W` = 40 bits (00_scope R5, 10_state R30). -/
abbrev NodeFreq := BitVec 40

/-- An index of the builder's arena: `NODE_IDX_W` = 9 bits (00_scope R5, 10_state R30). -/
abbrev NodeIdx := BitVec 9

/-- A bit-length: `LEN_W` = 8 bits (00_scope R5, 10_state R24). -/
abbrev Len := BitVec 8

/-- A stored codeword suffix: `CODE_W` = 255 bits (00_scope R5, 10_state R25). -/
abbrev Suffix := BitVec 255

/-- The assigner's working register `code`: `CODE_REG_W` = 256 bits (00_scope R5, 10_state R33). -/
abbrev CodeReg := BitVec 256

/-- A command word: `CMD_W` = 64 bits (00_scope R5, 30_encoding R62). -/
abbrev CmdWord := BitVec 64

/-- A response word: `RSP_W` = 269 bits (00_scope R5, 30_encoding R65). -/
abbrev RspWord := BitVec 269

end Sys2Proof
end

