-- ==== Sys2Proof/Config.lean ====
section
/-! DEFINITION. The implementation parameters of 00_scope R5, at the values this hardware takes.
The widths stand in Word.lean as types. Nothing of the spec is left to a free value: the tie-break is
decided (R105, D16), and latency has no place in a model without time (R212). -/

namespace Sys2Proof.Config

/-- `N_SYM` = 2^`SYM_W`: the number of entries of each table (00_scope R5). -/
def nSym : Nat := 256

/-- `FREQ_MAX` = 2^32 - 1: the largest count `FREQ` can hold (00_scope R5). -/
def freqMax : Count := 0xFFFFFFFF

/-- `ARENA_SIZE` = 2 * `N_SYM` - 1: the nodes the builder's arena can hold (00_scope R5, 10_state R30). -/
def arenaSize : Nat := 511

/-- `MAX_LEN` = `N_SYM` - 1: the largest bit-length that can occur (00_scope R5). -/
def maxLen : Nat := 255

end Sys2Proof.Config
end

