-- ==== Sys2Proof/Syntax.lean ====
section
/-! DEFINITION. The commands of the block, one constructor per row of spec/opcode_table.json
(30_encoding R64), the four fields of a command word before they are read as a command (R62), the table
of opcode rows (R64), and the notation of the spec: assembler text (R72) and pseudo-commands (R73). -/

namespace Sys2Proof

/-- The eleven commands with their operands (30_encoding R63, R64).
An operand has exactly the width of its field, so no operand can be out of range. -/
inductive Instr where
  /-- `NOP`, op 0x00 (44 R165). -/
  | nop
  /-- `CLR m`, op 0x01, `m = imm[2:0]` (44 R166). -/
  | clr (m : BitVec 3)
  /-- `CNT s`, op 0x10 (40 R82). -/
  | cnt (s : Symbol)
  /-- `FSET s, c`, op 0x11, `c = imm[31:0]` (40 R83). -/
  | fset (s : Symbol) (c : Count)
  /-- `FGET s`, op 0x12 (40 R84). -/
  | fget (s : Symbol)
  /-- `BUILD`, op 0x20 (41 R100). -/
  | build
  /-- `LSET s, l`, op 0x21, `l = imm[7:0]` (41 R120). -/
  | lset (s : Symbol) (l : Len)
  /-- `LGET s`, op 0x22 (41 R122). -/
  | lget (s : Symbol)
  /-- `ASSIGN`, op 0x30 (42 R130). -/
  | assign
  /-- `CGET s`, op 0x32 (42 R143). -/
  | cget (s : Symbol)
  /-- `GEN`, op 0x40 (43 R150). -/
  | gen
deriving DecidableEq, Repr

/-- The fields of a command word, as they stand in its bits (30_encoding R62). -/
structure Fields where
  /-- `cmd[63:56]`, the opcode. -/
  op : BitVec 8
  /-- `cmd[55:48]`, the symbol operand. -/
  sym : BitVec 8
  /-- `cmd[47:32]`, reserved. -/
  rsv : BitVec 16
  /-- `cmd[31:0]`, the immediate operand. -/
  imm : BitVec 32
deriving DecidableEq, Repr

/-- One row of the opcode table: a word `w` is the command iff `w AND mask = pattern` (30_encoding R64). -/
structure OpcodeRow where
  mnemonic : String
  pattern : CmdWord
  mask : CmdWord
deriving DecidableEq, Repr

/-- The eleven rows of 30_encoding R64, in the table's order. -/
def opcodeTable : List OpcodeRow :=
  [ ⟨"NOP",    0x0000000000000000, 0xFFFFFFFFFFFFFFFF⟩,
    ⟨"CLR",    0x0100000000000000, 0xFFFFFFFFFFFFFFF8⟩,
    ⟨"CNT",    0x1000000000000000, 0xFF00FFFFFFFFFFFF⟩,
    ⟨"FSET",   0x1100000000000000, 0xFF00FFFF00000000⟩,
    ⟨"FGET",   0x1200000000000000, 0xFF00FFFFFFFFFFFF⟩,
    ⟨"BUILD",  0x2000000000000000, 0xFFFFFFFFFFFFFFFF⟩,
    ⟨"LSET",   0x2100000000000000, 0xFF00FFFFFFFFFF00⟩,
    ⟨"LGET",   0x2200000000000000, 0xFF00FFFFFFFFFFFF⟩,
    ⟨"ASSIGN", 0x3000000000000000, 0xFFFFFFFFFFFFFFFF⟩,
    ⟨"CGET",   0x3200000000000000, 0xFF00FFFFFFFFFFFF⟩,
    ⟨"GEN",    0x4000000000000000, 0xFFFFFFFFFFFFFFFF⟩ ]

/-- The mnemonic of a command as the opcode table spells it (30_encoding R64). -/
def Instr.mnemonic : Instr → String
  | .nop => "NOP"
  | .clr _ => "CLR"
  | .cnt _ => "CNT"
  | .fset _ _ => "FSET"
  | .fget _ => "FGET"
  | .build => "BUILD"
  | .lset _ _ => "LSET"
  | .lget _ => "LGET"
  | .assign => "ASSIGN"
  | .cget _ => "CGET"
  | .gen => "GEN"

/-- The operands of a command in the order its assembler text gives them (30_encoding R63, R72). -/
def Instr.operands : Instr → List Nat
  | .nop => []
  | .clr m => [m.toNat]
  | .cnt s => [s.toNat]
  | .fset s c => [s.toNat, c.toNat]
  | .fget s => [s.toNat]
  | .build => []
  | .lset s l => [s.toNat, l.toNat]
  | .lget s => [s.toNat]
  | .assign => []
  | .cget s => [s.toNat]
  | .gen => []

/-- The assembler text of a command: the mnemonic, then the operands separated by commas, each number
in decimal, one of the two forms the spec admits (30_encoding R72). -/
def Instr.asm (i : Instr) : String :=
  match i.operands with
  | [] => i.mnemonic
  | os => i.mnemonic ++ " " ++ String.intercalate ", " (os.map toString)

/-- The pseudo-commands of the spec's notation (30_encoding R73). A string literal is the list of its
symbols. -/
inductive Pseudo where
  | fclr
  | lclr
  | cclr
  | reset
  | count (text : List Symbol)
  | pipe (text : List Symbol)
deriving DecidableEq, Repr

/-- The expansion of each pseudo-command (30_encoding R73). -/
def Pseudo.expand : Pseudo → List Instr
  | .fclr => [.clr 1]
  | .lclr => [.clr 2]
  | .cclr => [.clr 4]
  | .reset => [.clr 7]
  | .count text => text.map .cnt
  | .pipe text => .clr 1 :: (text.map .cnt ++ [.gen])

end Sys2Proof
end

