-- ==== Sys2Proof/WellFormed.lean ====
section
/-! DEFINITION. Which command words are well-formed (30_encoding R63, R68): the opcode is one of the eleven,
and every field the command does not use is zero. A command (`Instr`) has no ill-formed value, since each
operand has the width of its field; what can be ill-formed is a word, that is its four fields. -/

namespace Sys2Proof

/-- The reserved field must be zero in every command (30_encoding R62, R68). -/
def Fields.rsvOk (f : Fields) : Bool := f.rsv == 0

/-- `op` is one of the eleven assigned values (30_encoding R64, R68). -/
def Fields.opOk (f : Fields) : Bool :=
  [0x00, 0x01, 0x10, 0x11, 0x12, 0x20, 0x21, 0x22, 0x30, 0x32, 0x40].contains f.op

/-- `sym` must be zero in `NOP`, `CLR`, `BUILD`, `ASSIGN`, `GEN` (30_encoding R63, R68). -/
def Fields.symOk (f : Fields) : Bool :=
  !([0x00, 0x01, 0x20, 0x30, 0x40].contains f.op) || f.sym == 0

/-- The immediate bits a command does not use must be zero: all of them but `imm[2:0]` in `CLR`,
`imm[7:0]` in `LSET` and all 32 in `FSET` (30_encoding R63, R68). -/
def Fields.immOk (f : Fields) : Bool :=
  if f.op == 0x01 then f.imm.extractLsb' 3 29 == 0
  else if f.op == 0x11 then true
  else if f.op == 0x21 then f.imm.extractLsb' 8 24 == 0
  else f.imm == 0

/-- A well-formed word passes all four checks; every other word is illegal (30_encoding R68). -/
def Fields.wellFormed (f : Fields) : Bool := f.rsvOk && f.opOk && f.symOk && f.immOk

/-- Some row of the opcode table matches the word (30_encoding R64, R68). -/
def legalWord (w : CmdWord) : Bool := opcodeTable.any fun r => (w &&& r.mask) == r.pattern

end Sys2Proof
end

