-- ==== Sys2Proof/Decode.lean ====
section
/-! DEFINITION. The decoder, total on all 2^64 words and refusing an illegal word by name (30_encoding R68,
R70), and the encoder, its inverse on commands (R70). -/

namespace Sys2Proof

/-- Why a word is no command (30_encoding R68). The block answers all of them alike, `ILLEGAL_COMMAND`;
the name of the reason is the model's. -/
inductive Illegal where
  /-- `rsv ≠ 0`. -/
  | reservedNotZero
  /-- `op` is none of the eleven values. -/
  | opcodeUnassigned
  /-- a command without a symbol operand has `sym ≠ 0`. -/
  | symbolNotZero
  /-- an immediate bit the command does not use is not zero. -/
  | immediateNotZero
deriving DecidableEq, Repr

/-- The four fields of a command word (30_encoding R62). -/
def fieldsOf (w : CmdWord) : Fields :=
  { op := w.extractLsb' 56 8
    sym := w.extractLsb' 48 8
    rsv := w.extractLsb' 32 16
    imm := w.extractLsb' 0 32 }

/-- The word that carries four fields: `op`, `sym`, `rsv`, `imm` from the most significant end
(30_encoding R62). -/
def wordOf (f : Fields) : CmdWord := f.op ++ f.sym ++ f.rsv ++ f.imm

/-- A command without operands: `sym` and `imm` must be zero (30_encoding R70). -/
def decodePlain (f : Fields) (i : Instr) : Except Illegal Instr :=
  if f.sym ≠ 0 then .error .symbolNotZero
  else if f.imm ≠ 0 then .error .immediateNotZero
  else .ok i

/-- A command whose one operand is the symbol: `imm` must be zero (30_encoding R70). -/
def decodeSymbol (f : Fields) (i : Symbol → Instr) : Except Illegal Instr :=
  if f.imm ≠ 0 then .error .immediateNotZero else .ok (i f.sym)

/-- `CLR m`: `sym` and `imm[31:3]` must be zero, `m = imm[2:0]` (30_encoding R63, R70). -/
def decodeClr (f : Fields) : Except Illegal Instr :=
  if f.sym ≠ 0 then .error .symbolNotZero
  else if f.imm.extractLsb' 3 29 ≠ 0 then .error .immediateNotZero
  else .ok (.clr (f.imm.extractLsb' 0 3))

/-- `LSET s, l`: `imm[31:8]` must be zero, `l = imm[7:0]` (30_encoding R63, R70). -/
def decodeLset (f : Fields) : Except Illegal Instr :=
  if f.imm.extractLsb' 8 24 ≠ 0 then .error .immediateNotZero
  else .ok (.lset f.sym (f.imm.extractLsb' 0 8))

/-- The decoder on the four fields: the reserved field first, then the opcode's case (30_encoding R70). -/
def decodeFields (f : Fields) : Except Illegal Instr :=
  if f.rsv ≠ 0 then .error .reservedNotZero
  else if f.op = 0x00 then decodePlain f .nop
  else if f.op = 0x01 then decodeClr f
  else if f.op = 0x10 then decodeSymbol f .cnt
  else if f.op = 0x11 then .ok (.fset f.sym f.imm)
  else if f.op = 0x12 then decodeSymbol f .fget
  else if f.op = 0x20 then decodePlain f .build
  else if f.op = 0x21 then decodeLset f
  else if f.op = 0x22 then decodeSymbol f .lget
  else if f.op = 0x30 then decodePlain f .assign
  else if f.op = 0x32 then decodeSymbol f .cget
  else if f.op = 0x40 then decodePlain f .gen
  else .error .opcodeUnassigned

/-- The decoder: total on all 2^64 words (30_encoding R68, R70). -/
def decode (w : CmdWord) : Except Illegal Instr := decodeFields (fieldsOf w)

/-- The fields of a command: its `op`, its operands in their fields and zero elsewhere
(30_encoding R63, R64, R70). -/
def toFields : Instr → Fields
  | .nop => { op := 0x00, sym := 0, rsv := 0, imm := 0 }
  | .clr m => { op := 0x01, sym := 0, rsv := 0, imm := m.setWidth 32 }
  | .cnt s => { op := 0x10, sym := s, rsv := 0, imm := 0 }
  | .fset s c => { op := 0x11, sym := s, rsv := 0, imm := c }
  | .fget s => { op := 0x12, sym := s, rsv := 0, imm := 0 }
  | .build => { op := 0x20, sym := 0, rsv := 0, imm := 0 }
  | .lset s l => { op := 0x21, sym := s, rsv := 0, imm := l.setWidth 32 }
  | .lget s => { op := 0x22, sym := s, rsv := 0, imm := 0 }
  | .assign => { op := 0x30, sym := 0, rsv := 0, imm := 0 }
  | .cget s => { op := 0x32, sym := s, rsv := 0, imm := 0 }
  | .gen => { op := 0x40, sym := 0, rsv := 0, imm := 0 }

/-- The encoder: the one word of a command (30_encoding R70). -/
def encode (i : Instr) : CmdWord := wordOf (toFields i)

/-- The row of the opcode table that a command belongs to (30_encoding R64). -/
def rowOf : Instr → OpcodeRow
  | .nop => ⟨"NOP", 0x0000000000000000, 0xFFFFFFFFFFFFFFFF⟩
  | .clr _ => ⟨"CLR", 0x0100000000000000, 0xFFFFFFFFFFFFFFF8⟩
  | .cnt _ => ⟨"CNT", 0x1000000000000000, 0xFF00FFFFFFFFFFFF⟩
  | .fset _ _ => ⟨"FSET", 0x1100000000000000, 0xFF00FFFF00000000⟩
  | .fget _ => ⟨"FGET", 0x1200000000000000, 0xFF00FFFFFFFFFFFF⟩
  | .build => ⟨"BUILD", 0x2000000000000000, 0xFFFFFFFFFFFFFFFF⟩
  | .lset _ _ => ⟨"LSET", 0x2100000000000000, 0xFF00FFFFFFFFFF00⟩
  | .lget _ => ⟨"LGET", 0x2200000000000000, 0xFF00FFFFFFFFFFFF⟩
  | .assign => ⟨"ASSIGN", 0x3000000000000000, 0xFFFFFFFFFFFFFFFF⟩
  | .cget _ => ⟨"CGET", 0x3200000000000000, 0xFF00FFFFFFFFFFFF⟩
  | .gen => ⟨"GEN", 0x4000000000000000, 0xFFFFFFFFFFFFFFFF⟩

/-- The word the host's question of `nbits` bits stands for: every bit from `nbits` on is zero. -/
def tableWord (nbits w : Nat) : CmdWord := BitVec.ofNat 64 (w % 2 ^ nbits)

/-- The command the decoder reads from the word `w` of the opcode table, none where it refuses. -/
def decodeTableWord (nbits w : Nat) : Option Instr :=
  match decode (tableWord nbits w) with
  | .ok i => some i
  | .error _ => none

end Sys2Proof
end

