-- ==== Sys2Proof/Machine/State.lean ====
section
/-! DEFINITION. The state of the machine as plain data: the three tables (10_state R35), the response offered
on the response port (30_encoding R61), and the model's two lists for the host's side of the ports
(00_scope R6). The block has no other state: no registers, no program counter, no flags, no modes
(10_state R20, R21, R27, R28). -/

namespace Sys2Proof.Machine

/-- A table of 256 optional entries indexed by symbol (10_state R22), held as the list of its present
entries in ONE canonical form: symbols strictly ascending. An absent entry (`none`) is not listed, and
nothing is held behind it (R22, R29). -/
structure Table (α : Type) where
  cells : List (Symbol × α)
deriving DecidableEq, Repr

/-- The empty table: every entry `none` (00_scope R10). -/
def Table.empty {α : Type} : Table α := ⟨[]⟩

/-- A codeword: its length and its suffix, the low `len` bits of which hold the code (10_state R25). -/
structure Codeword where
  len : Len
  suffix : Suffix
deriving DecidableEq, Repr

/-- The six statuses of a response (30_encoding R66); the codes 6 to 15 are never produced and have no
constructor. -/
inductive Status where
  | ok
  | emptyAlphabet
  | countOverflow
  | codeOverflow
  | badOperand
  | illegalCommand
deriving DecidableEq, Repr

/-- A response word by its four fields (30_encoding R65); `Response.word` packs it. -/
structure Response where
  status : Status
  valid : Bool
  len : Len
  data : BitVec 256
deriving DecidableEq, Repr

/-- What the host can do at the ports (60_exceptions R190): present a command word, take the response
offered, assert reset. -/
inductive HostInput where
  /-- `cmd_valid = 1` with this word on `cmd`: any 64-bit word, legal or not. -/
  | command (w : CmdWord)
  /-- `rsp_ready = 1`: the host takes the response if one is offered. -/
  | take
  /-- `rst = 1` at a rising edge. -/
  | reset
deriving DecidableEq, Repr

/-- Reasons for the machine to stop with a fault. There are none: "no condition stops the block"
(93_implementation_defined, Part 1); a command that fails is answered with a status and the block goes on
(60_exceptions R176). No constructor, so no step can raise one. -/
inductive Fault where
deriving DecidableEq, Repr

/-- Reasons for the machine to refuse a step. -/
inductive Refusal where
  /-- Raised by an arm of `exec` for an instruction without a meaning, named by its mnemonic.
  Safe: nothing can be proved about what such an instruction does. No arm raises it now. -/
  | notModelled (mnemonic : String)
deriving DecidableEq, Repr

/-- The state of the machine. `freq`, `len`, `code` are the block's architectural state (10_state R35);
`rsp` is the response port; `inputs` and `delivered` are the host's (log 2, log 3). -/
structure State where
  /-- `FREQ`, the frequency table (10_state R23). -/
  freq : Table Count
  /-- `LEN`, the bit-length table (10_state R24). -/
  len : Table Len
  /-- `CODE`, the code table (10_state R25). -/
  code : Table Codeword
  /-- The response offered and not yet taken: `some` iff `rsp_valid = 1`, that is iff a command is in
  flight (30_encoding R61). -/
  rsp : Option Response
  /-- What the host does next, first to last. -/
  inputs : List HostInput
  /-- The responses the host has taken, first to last. -/
  delivered : List Response
deriving DecidableEq, Repr

/-- The state right after reset: the three tables empty, no response offered (10_state R29, 70 R200);
the host has planned nothing and taken nothing (log 2, log 3). -/
def State.reset : State :=
  { freq := Table.empty
    len := Table.empty
    code := Table.empty
    rsp := none
    inputs := []
    delivered := [] }

end Sys2Proof.Machine
end

