-- ==== Sys2Proof/Machine/Ops.lean ====
section
/-! DEFINITION. The shared operations: reading and writing one table entry and whole tables (00_scope R10,
20_memory R41), answering a command, failing a command (the spec's `raise`, 60_exceptions R176), and what the
ports do between commands: delivery, reset (30_encoding R61, 70 R200, R202). -/

namespace Sys2Proof.Machine

/-! ### Tables -/

/-- The first entry of a list of cells under a symbol. -/
def lookupCell {α : Type} (s : Symbol) : List (Symbol × α) → Option α
  | [] => none
  | (k, v) :: cs => if k = s then some v else lookupCell s cs

/-- Write the entry of a symbol into a list of cells, keeping the symbols ascending. -/
def insertCell {α : Type} (s : Symbol) (v : α) : List (Symbol × α) → List (Symbol × α)
  | [] => [(s, v)]
  | (k, w) :: cs =>
    if s < k then (s, v) :: (k, w) :: cs
    else if s = k then (s, v) :: cs
    else (k, w) :: insertCell s v cs

/-- `T[s]`, the whole entry of a symbol: `none` or `some v` (00_scope R10, 44 R169). -/
def Table.get {α : Type} (t : Table α) (s : Symbol) : Option α := lookupCell s t.cells

/-- `T[s] <- some v`: the entry is written whole, whatever it held; every other entry stays
(00_scope R10, 44 R169). No command writes `none` into a single entry. -/
def Table.set {α : Type} (t : Table α) (s : Symbol) (v : α) : Table α := ⟨insertCell s v t.cells⟩

/-- The canonical form: symbols strictly ascending, so that equal maps are equal data (10_state R35). -/
def Table.wf {α : Type} (t : Table α) : Bool := decide ((t.cells.map Prod.fst).Pairwise (· < ·))

/-- The 256 symbols in ascending order, `for s in 0..255` (00_scope R9, R10). -/
def symbols : List Symbol := (List.range Config.nSym).map (BitVec.ofNat 8)

/-- The present entries of a table in ascending symbol order, as a scan `for s in 0..255` meets them
(00_scope R10). -/
def Table.entries {α : Type} (t : Table α) : List (Symbol × α) :=
  symbols.filterMap fun s => (t.get s).map fun v => (s, v)

/-- `dom(T)`, the symbols of the present entries, ascending (00_scope R10). -/
def Table.dom {α : Type} (t : Table α) : List Symbol := t.entries.map Prod.fst

/-- `|T|`, the number of present entries, 0 to 256 (00_scope R10). -/
def Table.size {α : Type} (t : Table α) : Nat := t.entries.length

/-! ### Responses -/

/-- `rsp(st)`: the status with `valid = 0`, `len = 0`, `data = 0` (00_scope R10). -/
def Response.plain (st : Status) : Response := { status := st, valid := false, len := 0, data := 0 }

/-- `rsp(OK, valid = 1, len, data)`: a success that carries a value (00_scope R10). -/
def Response.value (len : Len) (data : BitVec 256) : Response :=
  { status := .ok, valid := true, len := len, data := data }

/-- The command is answered: its response is offered on the response port (30_encoding R61). -/
def State.respond (s : State) (r : Response) : State := { s with rsp := some r }

/-- `raise E`, the one way a command fails: no table is written, the response is `rsp(E)`, nothing else
records the failure and the block goes on (60_exceptions R176). The answer is a NEXT state. -/
def State.raise (s : State) (e : Status) : Host.Outcome State Fault Refusal :=
  .next (s.respond (Response.plain e))

/-- A command that succeeds without a value: `rsp(OK, valid = 0, len = 0, data = 0)`. -/
def State.done (s : State) : Host.Outcome State Fault Refusal := .next (s.respond (Response.plain .ok))

/-! ### The ports -/

/-- `cmd_ready`: the block can accept a command word, that is no command is in flight (30_encoding R61). -/
def State.cmdReady (s : State) : Bool := s.rsp.isNone

/-- `rsp_valid`: the block presents a response (30_encoding R61). -/
def State.rspValid (s : State) : Bool := s.rsp.isSome

/-- The response offered is delivered and the port is free again (30_encoding R61). Where none is offered
nothing happens. -/
def State.deliver (s : State) : State :=
  match s.rsp with
  | none => s
  | some r => { s with rsp := none, delivered := s.delivered ++ [r] }

/-- The reset event: the three tables empty, and the response of a command in flight is never delivered
(10_state R29, 70 R200, R202). What the host has already taken and what it will do next are the host's. -/
def State.resetEvent (s : State) : State :=
  { s with freq := Table.empty, len := Table.empty, code := Table.empty, rsp := none }

/-- The host's next action is used up. -/
def State.withInputs (s : State) (rest : List HostInput) : State := { s with inputs := rest }

/-- The block accepts a command word: the host has used up its action, and the response of the command
before has been taken, since the block accepts no new command before (30_encoding R61, 60_exceptions R190). -/
def State.accept (s : State) (rest : List HostInput) : State := (s.withInputs rest).deliver

/-- An illegal word: answered `ILLEGAL_COMMAND`, no state changed (30_encoding R68). -/
def rejectIllegal (s : State) : Host.Outcome State Fault Refusal := s.raise .illegalCommand

end Sys2Proof.Machine
end

