-- ==== Sys2Proof/Machine/Operands.lean ====
section
/-! DEFINITION. The operand forms and how a loaded value is carried in a response. There is one addressing mode,
direct by symbol; a stored value is its immediate bits as they stand, a loaded value is zero-extended, and
nothing is ever sign-extended (30_encoding R63, R67, 44 R169). -/

namespace Sys2Proof.Machine

/-- `m[i]` of the mask of `CLR`: the tables are 0 `FREQ`, 1 `LEN`, 2 `CODE` (30_encoding R63, 44 R166). -/
def maskBit (m : BitVec 3) (i : Nat) : Bool := m.getLsbD i

/-- `zext_256(c)`: a count in the `data` field (30_encoding R67). -/
def dataOfCount (c : Count) : BitVec 256 := c.setWidth 256

/-- `zext_256(x)`: a codeword suffix in the `data` field (30_encoding R67). -/
def dataOfSuffix (x : Suffix) : BitVec 256 := x.setWidth 256

/-- `zext_256(n)`: a number of entries in the `data` field (30_encoding R67). -/
def dataOfNumber (n : Nat) : BitVec 256 := BitVec.ofNat 256 n

/-- A leaf's frequency: its 32-bit count zero-extended to 40 bits (41 R106). -/
def nodeFreqOfCount (c : Count) : NodeFreq := c.setWidth 40

end Sys2Proof.Machine
end

