-- ==== Sys2Proof/Machine/Flags.lean ====
section
/-! DEFINITION. The block has no flags and no condition codes (10_state R28). What stands in their place is the
response: the status codes (30_encoding R66), the `valid` bit and fields of a read (R67), and the packing of the
269-bit response word (R65). -/

namespace Sys2Proof.Machine

/-- The code of a status (30_encoding R66). -/
def Status.toCode : Status → BitVec 4
  | .ok => 0
  | .emptyAlphabet => 1
  | .countOverflow => 2
  | .codeOverflow => 3
  | .badOperand => 4
  | .illegalCommand => 5

/-- The status of a code; the codes 6 to 15 are never produced (30_encoding R66). -/
def Status.ofCode (c : BitVec 4) : Option Status :=
  if c = 0 then some .ok
  else if c = 1 then some .emptyAlphabet
  else if c = 2 then some .countOverflow
  else if c = 3 then some .codeOverflow
  else if c = 4 then some .badOperand
  else if c = 5 then some .illegalCommand
  else none

/-- The 269-bit word of a response: `status`, `valid`, `len`, `data` from the most significant end
(30_encoding R65). -/
def Response.word (r : Response) : RspWord :=
  r.status.toCode ++ BitVec.ofBool r.valid ++ r.len ++ r.data

/-- How the host reads a response word (30_encoding R65, R66). -/
def Response.ofWord (w : RspWord) : Option Response :=
  (Status.ofCode (w.extractLsb' 265 4)).map fun st =>
    { status := st
      valid := w.getLsbD 264
      len := w.extractLsb' 256 8
      data := w.extractLsb' 0 256 }

/-- The word on the `rsp` port while `rsp_valid = 1` (30_encoding R60, R65). -/
def State.rspWord (s : State) : Option RspWord := s.rsp.map Response.word

/-- The answer to `FGET`: a present count in `data`, an absent entry `valid = 0` (30_encoding R67). -/
def countResponse : Option Count → Response
  | none => Response.plain .ok
  | some c => Response.value 0 (dataOfCount c)

/-- The answer to `LGET`: a present length in `len`, an absent entry `valid = 0` (30_encoding R67). -/
def lenResponse : Option Len → Response
  | none => Response.plain .ok
  | some l => Response.value l 0

/-- The answer to `CGET`: length in `len` and suffix in `data`, an absent entry `valid = 0`
(30_encoding R67). -/
def codeResponse : Option Codeword → Response
  | none => Response.plain .ok
  | some w => Response.value w.len (dataOfSuffix w.suffix)

/-- The answer to a successful `BUILD`, `ASSIGN` or `GEN`: the number of entries written to the output
table (30_encoding R67). -/
def numberResponse (n : Nat) : Response := Response.value 0 (dataOfNumber n)

end Sys2Proof.Machine
end

