-- ==== Sys2Proof/Machine/Assigner.lean ====
section
/-! DEFINITION. The canonical_huffman_assigner: `ASSIGN`, `CGET` and the function `assignCodes`
(42_canonical_huffman_assigner R130 to R145). -/

namespace Sys2Proof.Machine

/-- A record as the sort compares it: length first, symbol second (42 R133). -/
abbrev Record := Len × Symbol

/-- The order of the records: by length, then by symbol, both unsigned (42 R133, 00_scope R8, R9). -/
abbrev Record.le (a b : Record) : Prop := a.1 < b.1 ∨ (a.1 = b.1 ∧ a.2 ≤ b.2)

/-- The records of a length table, sorted ascending by (length, symbol) (42 R133). -/
def sortedRecords (t : Table Len) : List Record :=
  (t.entries.map fun e => (e.2, e.1)).insertionSort Record.le

/-- The assigner's two registers: `current_length` and `code` (10_state R33). -/
structure Walk where
  length : Len
  code : CodeReg
deriving DecidableEq, Repr

/-- The inner loop: while the record's length is greater than `current_length`, increment
`current_length` and shift `code` left by one (42 R135). The first argument bounds the number of turns;
lengths have 8 bits, so `MAX_LEN` turns are enough. -/
def padTo (l : Len) : Nat → Walk → Walk
  | 0, w => w
  | k + 1, w =>
    if w.length < l then padTo l k { length := w.length + 1, code := w.code <<< 1 } else w

/-- `2^current_length` in the 256-bit register (42 R141). -/
def codeLimit (l : Len) : CodeReg := 1 <<< l.toNat

/-- `Codeword{current_length, code}` with `suffix = code[254:0]` (42 R132, R135). -/
def Walk.codeword (w : Walk) : Codeword := { len := w.length, suffix := w.code.extractLsb' 0 255 }

/-- The walk over the sorted records: pad, test, assign, increment; `none` is `CODE_OVERFLOW`
(42 R132, R135, R141). -/
def walkRecords : List Record → Walk → Table Codeword → Option (Table Codeword)
  | [], _, out => some out
  | (l, x) :: recs, w, out =>
    let v := padTo l Config.maxLen w
    if codeLimit v.length ≤ v.code then none
    else walkRecords recs { v with code := v.code + 1 } (out.set x v.codeword)

/-- `assignCodes`: sort, start at the first record's length with code 0, walk (42 R132, R134).
`none` is the failure `CODE_OVERFLOW`. A table without entries is refused before (R131); here it would give
the empty table (log 9). -/
def assignCodes (t : Table Len) : Option (Table Codeword) :=
  match sortedRecords t with
  | [] => some Table.empty
  | (l, x) :: recs => walkRecords ((l, x) :: recs) { length := l, code := 0 } Table.empty

/-- What a successful `ASSIGN` writes: `CODE` replaced as a whole, `LEN` emptied (42 R142). -/
def State.assigned (s : State) (codes : Table Codeword) : State :=
  { s with code := codes, len := Table.empty }

/-- `ASSIGN`: fails on an empty `LEN` and on lengths that violate the Kraft inequality, else replaces `CODE`,
empties `LEN` and answers the number of codewords (42 R130, R131, R141, R142). -/
def execAssign (s : State) : Host.Outcome State Fault Refusal :=
  if s.len.size = 0 then s.raise .emptyAlphabet
  else
    match assignCodes s.len with
    | none => s.raise .codeOverflow
    | some codes => .next ((s.assigned codes).respond (numberResponse codes.size))

/-- `CGET s`: read one entry; writes no table (42 R143). -/
def execCget (x : Symbol) (s : State) : Host.Outcome State Fault Refusal :=
  .next (s.respond (codeResponse (s.code.get x)))

end Sys2Proof.Machine
end

