-- ==== Sys2Proof/Machine/Builder.lean ====
section
/-! DEFINITION. The huffman_tree_builder: `BUILD`, `LSET`, `LGET` and the function `buildLengths`
(41_huffman_tree_builder R100 to R123). The builder is written over the choice among equal frequencies
(`Selector`), so that claims can be made for every legal choice (R108); the machine runs `selectLowest` (R105). -/

namespace Sys2Proof.Machine

/-- A node of the arena: a tagged variant, children by index (10_state R30). -/
inductive Node where
  | leaf (symbol : Symbol) (frequency : NodeFreq)
  | inner (frequency : NodeFreq) (left right : NodeIdx)
deriving DecidableEq, Repr

/-- The frequency field of a node, leaf or inner (41 R103). -/
def Node.frequency : Node → NodeFreq
  | .leaf _ f => f
  | .inner f _ _ => f

/-- The arena `NODE[0..510]`: `nodes` are the slots written so far, from slot 0 up, never more than the `ARENA_SIZE`
slots there are (10_state R30). -/
structure Arena where
  nodes : List Node
  fits : nodes.length ≤ Config.arenaSize
deriving DecidableEq, Repr

/-- `NODE[i]`, none for a slot not yet written (10_state R30). -/
def Arena.slot (ar : Arena) (i : NodeIdx) : Option Node := ar.nodes[i.toNat]?

/-- `next`, the index of the first slot not yet written (41 R104). -/
def Arena.next (ar : Arena) : NodeIdx := BitVec.ofNat 9 ar.nodes.length

/-- `NODE[next] <- nd` (41 R104). With all 511 slots written there is none left and nothing is written, which no run
meets (R107, log 9). -/
def Arena.push (ar : Arena) (nd : Node) : Arena :=
  if h : ar.nodes.length < Config.arenaSize then ⟨ar.nodes ++ [nd], by simpa using h⟩ else ar

/-- `freq(i)`, the frequency of the node in slot `i` (41 R103). A slot that holds no node is never asked for;
the function answers 0 there to be total (log 9). -/
def freqOf (ar : Arena) (i : NodeIdx) : NodeFreq :=
  match ar.slot i with
  | some nd => nd.frequency
  | none => 0

/-- How the next node is chosen among the pending ones (41 R105, R108). -/
abbrev Selector := Arena → List NodeIdx → NodeIdx

/-- `(freq(i), i) < (freq(j), j)` in the lexicographic order (00_scope R8, 41 R105). -/
def nodeBefore (ar : Arena) (i j : NodeIdx) : Bool :=
  decide (freqOf ar i < freqOf ar j) || (decide (freqOf ar i = freqOf ar j) && decide (i < j))

/-- `select(P)`: the pending index `i` with `(freq(i), i)` least (41 R105). The pending set is never empty
when it is asked; the function answers 0 there to be total (log 9). -/
def selectLowest (ar : Arena) : List NodeIdx → NodeIdx
  | [] => 0
  | [i] => i
  | i :: j :: rest =>
    let m := selectLowest ar (j :: rest)
    if nodeBefore ar i m then i else m

/-- Step 1: one leaf per present entry, in ascending symbol order, zero counts included (41 R102). -/
def leafNodes (f : Table Count) : List Node := f.entries.map fun e => .leaf e.1 (nodeFreqOfCount e.2)

/-- The leaves are at most `N_SYM`, so the arena holds them. -/
theorem leafNodes_fit (f : Table Count) : (leafNodes f).length ≤ Config.arenaSize := by
  have h : f.entries.length ≤ symbols.length := List.length_filterMap_le _ _
  have hs : symbols.length = 256 := by simp [symbols, Config.nSym]
  simp only [leafNodes, List.length_map, Config.arenaSize]
  omega

/-- The arena after step 1: the leaves occupy slots `0 … n - 1` (41 R102). -/
def leaves (f : Table Count) : Arena := ⟨leafNodes f, leafNodes_fit f⟩

/-- The pending set after step 1: `P = ` the indices `0 … n - 1` (41 R103). -/
def initialPending (n : Nat) : List NodeIdx := (List.range n).map (BitVec.ofNat 9)

/-- The inner node made of the popped nodes `a` (left) and `b` (right), of frequency `freq(a) + freq(b)`
(41 R104, R106, R109). -/
def mergeNode (ar : Arena) (a b : NodeIdx) : Node := .inner (freqOf ar a + freqOf ar b) a b

/-- One merge: pop two nodes, put their parent into the next free slot and make it pending (41 R104). -/
def mergeOnce (sel : Selector) (ar : Arena) (p : List NodeIdx) : Arena × List NodeIdx :=
  let a := sel ar p
  let p₁ := p.erase a
  let b := sel ar p₁
  let p₂ := p₁.erase b
  (ar.push (mergeNode ar a b), p₂ ++ [ar.next])

/-- Step 3, the merge loop: merge while more than one node is pending (41 R104). The first argument bounds the
number of merges; each merge lowers the number of pending nodes by one (R107), so the number of leaves is
enough. -/
def mergeLoop (sel : Selector) : Nat → Arena → List NodeIdx → Arena × List NodeIdx
  | 0, ar, p => (ar, p)
  | k + 1, ar, p =>
    if 1 < p.length then
      let m := mergeOnce sel ar p
      mergeLoop sel k m.1 m.2
    else (ar, p)

/-- Steps 1 to 3: the arena and the pending set when the merge loop ends (41 R102 to R107). -/
def buildTree (sel : Selector) (f : Table Count) : Arena × List NodeIdx :=
  mergeLoop sel f.size (leaves f) (initialPending f.size)

/-- The root: the single pending index left (41 R104, R107). -/
def rootOf (t : Arena × List NodeIdx) : NodeIdx := t.2.headD 0

/-- The bit-length emitted for a leaf: its depth, but 1 for the alphabet of one symbol (41 R112). -/
def emittedLen (n : Nat) (depth : Len) : Len := if n = 1 then 1 else depth

/-- Step 5, the traversal `visit(i, depth)`: depth-first, left child before right, a leaf emits its record
(41 R110, R112). `n` is the number of symbols; the first argument bounds the levels below the node; a child's
slot lies below its parent's (R104), so the size of the arena is enough (log 9). -/
def visit (ar : Arena) (n : Nat) : Nat → NodeIdx → Len → Table Len → Table Len
  | 0, _, _, out => out
  | k + 1, i, depth, out =>
    match ar.slot i with
    | none => out
    | some (.leaf sym _) => out.set sym (emittedLen n depth)
    | some (.inner _ left right) =>
      visit ar n k right (depth + 1) (visit ar n k left (depth + 1) out)

/-- `buildLengths` over a choice among equal frequencies (41 R108, R116). -/
def buildLengthsWith (sel : Selector) (f : Table Count) : Table Len :=
  let t := buildTree sel f
  visit t.1 f.size t.1.nodes.length (rootOf t) 0 Table.empty

/-- `buildLengths` of this hardware: the tie-break is the lowest arena index (41 R105, R116). -/
def buildLengths (f : Table Count) : Table Len := buildLengthsWith selectLowest f

/-- What a successful `BUILD` writes: `LEN` replaced as a whole, `FREQ` emptied (41 R113). -/
def State.built (s : State) (lens : Table Len) : State := { s with len := lens, freq := Table.empty }

/-- `BUILD`: fails on an empty `FREQ`, else replaces `LEN`, empties `FREQ` and answers the number of
records (41 R100, R101, R113). -/
def execBuild (s : State) : Host.Outcome State Fault Refusal :=
  if s.freq.size = 0 then s.raise .emptyAlphabet
  else .next ((s.built (buildLengths s.freq)).respond (numberResponse (buildLengths s.freq).size))

/-- `LEN[x] <- some l`. -/
def State.setLen (s : State) (x : Symbol) (l : Len) : State := { s with len := s.len.set x l }

/-- `LSET s, l`: a length of 0 fails with `BAD_OPERAND`, any other is loaded, overwriting (41 R120). -/
def execLset (x : Symbol) (l : Len) (s : State) : Host.Outcome State Fault Refusal :=
  if l = 0 then s.raise .badOperand else (s.setLen x l).done

/-- `LGET s`: read one entry; writes no table (41 R122). -/
def execLget (x : Symbol) (s : State) : Host.Outcome State Fault Refusal :=
  .next (s.respond (lenResponse (s.len.get x)))

end Sys2Proof.Machine
end

