-- ==== Sys2Proof/Machine/Counter.lean ====
section
/-! DEFINITION. The symbol_frequency_counter: `CNT`, `FSET`, `FGET` (40_symbol_frequency_counter). -/

namespace Sys2Proof.Machine

/-- `FREQ[x] <- some c`. -/
def State.setFreq (s : State) (x : Symbol) (c : Count) : State := { s with freq := s.freq.set x c }

/-- `CNT s`: an absent entry becomes `some 1`, a count below `FREQ_MAX` is incremented, a count at
`FREQ_MAX` fails with `COUNT_OVERFLOW` (40 R82). -/
def execCnt (x : Symbol) (s : State) : Host.Outcome State Fault Refusal :=
  match s.freq.get x with
  | none => (s.setFreq x 1).done
  | some c =>
    if c < Config.freqMax then (s.setFreq x (c + 1)).done
    else s.raise .countOverflow

/-- `FSET s, c`: load one entry, zero included, overwriting (40 R83). -/
def execFset (x : Symbol) (c : Count) (s : State) : Host.Outcome State Fault Refusal :=
  (s.setFreq x c).done

/-- `FGET s`: read one entry; writes no table (40 R84). -/
def execFget (x : Symbol) (s : State) : Host.Outcome State Fault Refusal :=
  .next (s.respond (countResponse (s.freq.get x)))

end Sys2Proof.Machine
end

