-- ==== Sys2Proof/Machine/Generator.lean ====
section
/-! DEFINITION. The huffman_code_table_gen: `GEN`, the whole pipeline as one command
(43_huffman_code_table_gen R150 to R158). -/

namespace Sys2Proof.Machine

/-- What a successful `GEN` writes: `CODE` replaced as a whole, `FREQ` and `LEN` emptied (43 R150). -/
def State.generated (s : State) (codes : Table Codeword) : State :=
  { s with code := codes, freq := Table.empty, len := Table.empty }

/-- `GEN`: fails on an empty `FREQ`, else assigns the codes of the lengths built from `FREQ` (43 R150).
The second failure is the one `assignCodes` can give; for lengths that were built it never arises (R152). -/
def execGen (s : State) : Host.Outcome State Fault Refusal :=
  if s.freq.size = 0 then s.raise .emptyAlphabet
  else
    match assignCodes (buildLengths s.freq) with
    | none => s.raise .codeOverflow
    | some codes => .next ((s.generated codes).respond (numberResponse codes.size))

end Sys2Proof.Machine
end

