-- ==== Sys2Proof/Machine/System.lean ====
section
/-! DEFINITION. The system commands `NOP` and `CLR` (44_system_commands R165, R166). -/

namespace Sys2Proof.Machine

/-- `NOP`: reads and writes no table, answers OK (44 R165). -/
def execNop (s : State) : Host.Outcome State Fault Refusal := s.done

/-- The tables selected by the mask are emptied, the others stay (44 R166). -/
def State.clear (s : State) (m : BitVec 3) : State :=
  { s with
    freq := if maskBit m 0 then Table.empty else s.freq
    len := if maskBit m 1 then Table.empty else s.len
    code := if maskBit m 2 then Table.empty else s.code }

/-- `CLR m`: empty the tables selected by the mask, answer OK (44 R166). -/
def execClr (m : BitVec 3) (s : State) : Host.Outcome State Fault Refusal := (s.clear m).done

end Sys2Proof.Machine
end

