-- ==== Sys2Proof/Machine/Dispatch.lean ====
section
/-! DEFINITION. The one dispatch from a command to its meaning, one arm per constructor of `Instr`. -/

namespace Sys2Proof.Machine

/-- What a command does (10_state R35). Every arm answers a next state: a command that fails is answered
with a status and the block goes on (60_exceptions R176). -/
def exec (i : Instr) (s : State) : Host.Outcome State Fault Refusal :=
  match i with
  | .nop => Sys2Proof.Machine.execNop s
  | .clr m => Sys2Proof.Machine.execClr m s
  | .cnt x => Sys2Proof.Machine.execCnt x s
  | .fset x c => Sys2Proof.Machine.execFset x c s
  | .fget x => Sys2Proof.Machine.execFget x s
  | .build => Sys2Proof.Machine.execBuild s
  | .lset x l => Sys2Proof.Machine.execLset x l s
  | .lget x => Sys2Proof.Machine.execLget x s
  | .assign => Sys2Proof.Machine.execAssign s
  | .cget x => Sys2Proof.Machine.execCget x s
  | .gen => Sys2Proof.Machine.execGen s

end Sys2Proof.Machine
end

