-- ==== Sys2Proof/Machine/Step.lean ====
section
/-! DEFINITION. One step of the machine: the block meets the host's next action (00_scope R6, 60_exceptions R190).
There is no program counter and no fetch from a memory; the command comes from the command port (10_state R21). -/

namespace Sys2Proof.Machine

/-- One step. With no action of the host left the block holds its tables (60_exceptions R194). A reset empties the
tables and drops the response in flight (70 R200, R202). Taking a response delivers it (30_encoding R61). A command
word is accepted, once the response before it has been taken, then decoded; a legal word is executed, an illegal
one answered `ILLEGAL_COMMAND` (R61, R68). -/
def step (s : State) : Host.Outcome State Fault Refusal :=
  match s.inputs with
  | [] => .next s
  | .reset :: rest => .next (s.withInputs rest).resetEvent
  | .take :: rest => .next (s.withInputs rest).deliver
  | .command w :: rest =>
    match decode w with
    | .error _ => rejectIllegal (s.accept rest)
    | .ok i => exec i (s.accept rest)

/-- The host presents the word `w` of the opcode table as its very next action, before whatever it had planned
(10_state R21, log 14). -/
def State.withFetchWord (s : State) (nbits w : Nat) : State :=
  { s with inputs := .command (tableWord nbits w) :: s.inputs }

/-- The host's plan is replaced by a list of commands, each presented as its word (10_state R21, log 14). -/
def State.withProgram (s : State) (is : List Instr) : State :=
  { s with inputs := is.map fun i => .command (encode i) }

end Sys2Proof.Machine
end

