-- ==== Sys2Proof/Safety.lean ====
section
/-! DEFINITION. What counts as a safe run and the notions claims are stated in: the Kraft sum, prefix-freeness of codewords
as bit strings, weighted length, legal choices of the merge loop, the frames of the commands, the invariants of
every reachable state (10_state R26). -/

namespace Sys2Proof.Machine

/-! ### Bit strings and codes -/

/-- A codeword as the string of bits an encoder emits: `suffix[len - 1]` first, `suffix[0]` last
(20_memory R42). -/
def Codeword.bits (w : Codeword) : List Bool :=
  (List.range w.len.toNat).map fun i => w.suffix.getLsbD (w.len.toNat - 1 - i)

/-- A codeword of the data model: `1 ≤ len`, `suffix < 2^len` (10_state R25). -/
def Codeword.wf (w : Codeword) : Prop := w.len ≠ 0 ∧ w.suffix.toNat < 2 ^ w.len.toNat

/-- No codeword of the table is a prefix of the codeword of another symbol (42 R137). -/
def PrefixFree (t : Table Codeword) : Prop :=
  ∀ (x y : Symbol) (v w : Codeword), x ≠ y → t.get x = some v → t.get y = some w → ¬ v.bits <+: w.bits

/-- The Kraft sum in the integer form `Σ 2^(MAX_LEN - l)` (00_scope R8). -/
def kraftSum (t : Table Len) : Nat := (t.entries.map fun e => 2 ^ (Config.maxLen - e.2.toNat)).sum

/-- The Kraft inequality in the integer form `Σ 2^(MAX_LEN - l) ≤ 2^MAX_LEN` (00_scope R8). -/
def Kraft (t : Table Len) : Prop := kraftSum t ≤ 2 ^ Config.maxLen

/-- The Kraft sum of the lengths of a code table (00_scope R8). -/
def codeKraftSum (t : Table Codeword) : Nat :=
  (t.entries.map fun e => 2 ^ (Config.maxLen - e.2.len.toNat)).sum

/-- The weighted length `Σ FREQ[s] · L(s)` of an assignment of lengths to the symbols of `f` (41 R115). -/
def weighted (f : Table Count) (len : Symbol → Nat) : Nat :=
  (f.entries.map fun e => e.2.toNat * len e.1).sum

/-- The length a table gives a symbol, 0 for an absent one. -/
def lenAt (t : Table Len) (x : Symbol) : Nat :=
  match t.get x with
  | none => 0
  | some l => l.toNat

/-! ### Words -/

/-- The decoder refuses the word (30_encoding R68). -/
def IsIllegal (w : CmdWord) : Prop := ∃ e, decode w = .error e

/-- The symbol in its field `cmd[55:48]` (30_encoding R62). -/
def symField (x : Symbol) : CmdWord := x.setWidth 64 <<< 48

/-! ### Sorted records and their codes -/

/-- Record `i` of a list of records. -/
def recAt (recs : List Record) (i : Nat) : Record := recs.getD i (0, 0)

/-- The order in which a scan `for l in 1..255: for s in 0..255: if LEN[s] = some l` meets the records
(42 R133). -/
def scanRecords (t : Table Len) : List Record :=
  (List.range 255).flatMap fun k =>
    symbols.filterMap fun x =>
      if t.get x = some (BitVec.ofNat 8 (k + 1)) then some (BitVec.ofNat 8 (k + 1), x) else none

/-- The code of record `i` by the closed form `Σ_{j<i} 2^(l_i - l_j)` (42 R139). -/
def codeSum (recs : List Record) (i : Nat) : Nat :=
  ((List.range i).map fun j => 2 ^ ((recAt recs i).1.toNat - (recAt recs j).1.toNat)).sum

/-! ### The builder -/

/-- A legal choice: some pending node of least frequency (41 R104, R108). -/
def LegalSelector (sel : Selector) : Prop :=
  ∀ (ar : Arena) (p : List NodeIdx), p ≠ [] → sel ar p ∈ p ∧ ∀ i ∈ p, freqOf ar (sel ar p) ≤ freqOf ar i

/-- The opposite legal choice: among equal frequencies the highest arena index (41 R108). -/
def selectHighest (ar : Arena) : List NodeIdx → NodeIdx
  | [] => 0
  | [i] => i
  | i :: j :: rest =>
    let m := selectHighest ar (j :: rest)
    if freqOf ar i < freqOf ar m ∨ (freqOf ar i = freqOf ar m ∧ m < i) then i else m

/-- The sum of the counts of a table. -/
def totalCount (f : Table Count) : Nat := (f.entries.map fun e => e.2.toNat).sum

/-- The frequency of an inner node, 0 for a leaf: summed over the arena, the sum of the frequencies of all
inner nodes (41 R115). -/
def Node.innerFrequency : Node → Nat
  | .leaf _ _ => 0
  | .inner f _ _ => f.toNat

/-! ### Frames -/

/-- The three tables are unchanged. -/
def SameTables (s t : State) : Prop := t.freq = s.freq ∧ t.len = s.len ∧ t.code = s.code

/-- The host's plan and the responses it has taken are unchanged. -/
def SameHost (s t : State) : Prop := t.inputs = s.inputs ∧ t.delivered = s.delivered

/-- Two states whose three tables are the same maps (10_state R35). -/
def SameEntries (s t : State) : Prop :=
  (∀ x, t.freq.get x = s.freq.get x) ∧ (∀ x, t.len.get x = s.len.get x) ∧ ∀ x, t.code.get x = s.code.get x

/-- Every entry of the table is absent. -/
def AllAbsent {α : Type} (t : Table α) : Prop := ∀ x, t.get x = none

/-- Exactly the same symbols are present in both tables. -/
def SameDomain {α β : Type} (t : Table α) (u : Table β) : Prop := ∀ x, t.get x = none ↔ u.get x = none

/-- Of the tables only the entry `FREQ[x]` may differ. -/
def OnlyFreqAt (x : Symbol) (s t : State) : Prop :=
  (∀ y, y ≠ x → t.freq.get y = s.freq.get y) ∧ t.len = s.len ∧ t.code = s.code

/-- Of the tables only the entry `LEN[x]` may differ. -/
def OnlyLenAt (x : Symbol) (s t : State) : Prop :=
  t.freq = s.freq ∧ (∀ y, y ≠ x → t.len.get y = s.len.get y) ∧ t.code = s.code

/-- The commands that may write `FREQ` (20_memory R49). -/
def writesFreq : Instr → Bool
  | .nop => false
  | .clr m => m.getLsbD 0
  | .cnt _ => true
  | .fset _ _ => true
  | .fget _ => false
  | .build => true
  | .lset _ _ => false
  | .lget _ => false
  | .assign => false
  | .cget _ => false
  | .gen => true

/-- The commands that may write `LEN` (20_memory R49). -/
def writesLen : Instr → Bool
  | .nop => false
  | .clr m => m.getLsbD 1
  | .cnt _ => false
  | .fset _ _ => false
  | .fget _ => false
  | .build => true
  | .lset _ _ => true
  | .lget _ => false
  | .assign => true
  | .cget _ => false
  | .gen => true

/-- The commands that may write `CODE` (20_memory R49). -/
def writesCode : Instr → Bool
  | .nop => false
  | .clr m => m.getLsbD 2
  | .cnt _ => false
  | .fset _ _ => false
  | .fget _ => false
  | .build => false
  | .lset _ _ => false
  | .lget _ => false
  | .assign => true
  | .cget _ => false
  | .gen => true

/-- Two states agree on everything a command reads (20_memory R49). -/
def ReadsSame (i : Instr) (s u : State) : Prop :=
  match i with
  | .nop => True
  | .clr _ => True
  | .cnt x => s.freq.get x = u.freq.get x
  | .fset _ _ => True
  | .fget x => s.freq.get x = u.freq.get x
  | .build => ∀ x, s.freq.get x = u.freq.get x
  | .lset _ _ => True
  | .lget x => s.len.get x = u.len.get x
  | .assign => ∀ x, s.len.get x = u.len.get x
  | .cget x => s.code.get x = u.code.get x
  | .gen => ∀ x, s.freq.get x = u.freq.get x

/-- The status of the response offered. -/
def State.status (t : State) : Option Status := t.rsp.map Response.status

/-- The response offered is `rsp(st)`: the status alone (00_scope R10). -/
def Answers (t : State) (st : Status) : Prop := t.rsp = some (Response.plain st)

/-- Every response so far, in order: those the host has taken, then the one on the port. -/
def State.responses (s : State) : List Response := s.delivered ++ s.rsp.toList

/-! ### Invariants -/

/-- A response of the block: one that is not `OK` carries nothing (30_encoding R66). -/
def Response.canonical (r : Response) : Prop := r.status ≠ .ok → r = Response.plain r.status

/-- The invariants of every reachable state (10_state R26), with the canonical form of the tables (R35) and of the
responses (30_encoding R66). -/
structure State.Inv (s : State) : Prop where
  freqForm : s.freq.wf = true
  lenForm : s.len.wf = true
  codeForm : s.code.wf = true
  lenRange : ∀ x l, s.len.get x = some l → l ≠ 0
  codeRange : ∀ x w, s.code.get x = some w → w.wf
  codeCanonical :
    AllAbsent s.code ∨
      ∃ t : Table Len, ¬ AllAbsent t ∧ (∀ x l, t.get x = some l → l ≠ 0) ∧ Kraft t ∧ assignCodes t = some s.code
  responseForm : ∀ r ∈ s.responses, r.canonical

/-- `k` steps of the machine. -/
def runSteps (k : Nat) (s : State) : Host.Outcome State Fault Refusal := Sys2Proof.core.run k s

/-- A safe run is one in which no step stops the machine (93_implementation_defined, Part 1). -/
def SafeStep (s : State) : Prop := ∃ t, step s = .next t

end Sys2Proof.Machine
end

