-- ==== Sys2Proof/Certificates/Slice0/Obligations.lean ====
section
/-! DEFINITION. The statements about the machine, for the provers. -/

open Sys2Proof Sys2Proof.Machine

/-! ### Command words and response words -/

/-- R70: `decode(encode(c)) = c` for every command, and `encode(decode(w)) = w` for every legal word. -/
def Obligations.DecodeAndEncodeAgree : Prop :=
  (∀ i : Instr, decode (encode i) = .ok i) ∧
  ∀ (w : CmdWord) (i : Instr), decode w = .ok i → encode i = w

/-- R70: the decoder, case by case over the bits of the word. -/
def Obligations.DecodeFollowsTheCaseTable : Prop :=
  ∀ (w : CmdWord) (op sym : BitVec 8) (rsv : BitVec 16) (imm : BitVec 32),
    w.extractLsb' 56 8 = op → w.extractLsb' 48 8 = sym → w.extractLsb' 32 16 = rsv → w.extractLsb' 0 32 = imm →
    (rsv ≠ 0 → IsIllegal w) ∧
    (rsv = 0 →
      (op = 0x00 → (sym = 0 ∧ imm = 0 → decode w = .ok .nop) ∧ (¬ (sym = 0 ∧ imm = 0) → IsIllegal w)) ∧
      (op = 0x01 →
        (sym = 0 ∧ w.extractLsb' 3 29 = 0 → decode w = .ok (.clr (w.extractLsb' 0 3))) ∧
        (¬ (sym = 0 ∧ w.extractLsb' 3 29 = 0) → IsIllegal w)) ∧
      (op = 0x10 → (imm = 0 → decode w = .ok (.cnt sym)) ∧ (imm ≠ 0 → IsIllegal w)) ∧
      (op = 0x11 → decode w = .ok (.fset sym imm)) ∧
      (op = 0x12 → (imm = 0 → decode w = .ok (.fget sym)) ∧ (imm ≠ 0 → IsIllegal w)) ∧
      (op = 0x20 → (sym = 0 ∧ imm = 0 → decode w = .ok .build) ∧ (¬ (sym = 0 ∧ imm = 0) → IsIllegal w)) ∧
      (op = 0x21 →
        (w.extractLsb' 8 24 = 0 → decode w = .ok (.lset sym (w.extractLsb' 0 8))) ∧
        (w.extractLsb' 8 24 ≠ 0 → IsIllegal w)) ∧
      (op = 0x22 → (imm = 0 → decode w = .ok (.lget sym)) ∧ (imm ≠ 0 → IsIllegal w)) ∧
      (op = 0x30 → (sym = 0 ∧ imm = 0 → decode w = .ok .assign) ∧ (¬ (sym = 0 ∧ imm = 0) → IsIllegal w)) ∧
      (op = 0x32 → (imm = 0 → decode w = .ok (.cget sym)) ∧ (imm ≠ 0 → IsIllegal w)) ∧
      (op = 0x40 → (sym = 0 ∧ imm = 0 → decode w = .ok .gen) ∧ (¬ (sym = 0 ∧ imm = 0) → IsIllegal w)) ∧
      (op ∉ [0x00, 0x01, 0x10, 0x11, 0x12, 0x20, 0x21, 0x22, 0x30, 0x32, 0x40] → IsIllegal w))

/-- R68: a word is illegal exactly when no row of the opcode table matches it, that is when a check of its fields
fails. -/
def Obligations.IllegalWordsAreThoseNoRowMatches : Prop :=
  ∀ w : CmdWord,
    (IsIllegal w ↔ ∀ r ∈ opcodeTable, w &&& r.mask ≠ r.pattern) ∧
    (IsIllegal w ↔ (fieldsOf w).wellFormed = false)

/-- R64: at most one row of the opcode table matches a word, and a word that matches a row decodes to a command of
that row. -/
def Obligations.MatchingRowGivesTheCommand : Prop :=
  ∀ w : CmdWord,
    (∀ r ∈ opcodeTable, ∀ q ∈ opcodeTable, w &&& r.mask = r.pattern → w &&& q.mask = q.pattern → r = q) ∧
    ∀ r ∈ opcodeTable, w &&& r.mask = r.pattern → ∃ i, decode w = .ok i ∧ i.mnemonic = r.mnemonic

/-- Words written out from the encoding table, one per command, and two illegal ones (95 Part 2). -/
def Obligations.WrittenOutWordsDecode : Prop :=
  decode 0x0000000000000000 = .ok .nop ∧
  decode 0x0100000000000004 = .ok (.clr 4) ∧
  decode 0x10FF000000000000 = .ok (.cnt 0xFF) ∧
  decode 0x11610000FFFFFFFF = .ok (.fset 0x61 0xFFFFFFFF) ∧
  decode 0x1261000000000000 = .ok (.fget 0x61) ∧
  decode 0x2000000000000000 = .ok .build ∧
  decode 0x21780000000000FF = .ok (.lset 0x78 255) ∧
  decode 0x2261000000000000 = .ok (.lget 0x61) ∧
  decode 0x3000000000000000 = .ok .assign ∧
  decode 0x3262000000000000 = .ok (.cget 0x62) ∧
  decode 0x4000000000000000 = .ok .gen ∧
  IsIllegal 0x3100000000000000 ∧
  IsIllegal 0x2161000000000100

/-- R65: the four fields of the response word; and the host reads back what the block sent. -/
def Obligations.ResponseWordHasItsFields : Prop :=
  ∀ r : Response,
    r.word.extractLsb' 265 4 = r.status.toCode ∧ r.word.getLsbD 264 = r.valid ∧
    r.word.extractLsb' 256 8 = r.len ∧ r.word.extractLsb' 0 256 = r.data ∧
    Response.ofWord r.word = some r

/-! ### Steps, the ports, reset -/

/-- R61, R46: a legal word on the command port is executed as the command it decodes to, once the response before it
has been taken; that presenting the word takes that response is the model's reading of R61 (log 3). -/
def Obligations.StepExecutesTheDecodedCommand : Prop :=
  ∀ (s : State) (w : CmdWord) (rest : List HostInput) (i : Instr),
    s.inputs = .command w :: rest → decode w = .ok i →
      step s = exec i (s.accept rest) ∧ SameTables s (s.accept rest) ∧ (s.accept rest).cmdReady = true ∧
      (s.accept rest).inputs = rest ∧ (s.accept rest).delivered = s.responses

/-- R68: an illegal word is accepted, changes no table and is answered with status 5, all other fields zero; that
presenting the word delivers the response still offered is the model's reading of R61 (log 3). -/
def Obligations.StepAnswersIllegalWord : Prop :=
  ∀ (s : State) (w : CmdWord) (rest : List HostInput),
    s.inputs = .command w :: rest → IsIllegal w →
      ∃ t, step s = .next t ∧ SameTables s t ∧ Answers t .illegalCommand ∧
        t.rspWord = some (BitVec.ofNat 269 (5 * 2 ^ 265)) ∧ t.inputs = rest ∧ t.delivered = s.responses

/-- R29: after reset all three tables are empty; R200: no response is offered. -/
def Obligations.ResetStateIsEmpty : Prop :=
  AllAbsent State.reset.freq ∧ AllAbsent State.reset.len ∧ AllAbsent State.reset.code ∧
  State.reset.rspValid = false ∧ State.reset.cmdReady = true

/-- R200, R202: a reset empties the tables, also while a command is in flight, whose response is never delivered; R201:
`CLR 7` leaves the same tables and is answered. That a reset is an event between steps is the model's reading (log 4). -/
def Obligations.ResetEventEmptiesTheTables : Prop :=
  (∀ (s : State) (rest : List HostInput), s.inputs = .reset :: rest →
    ∃ t, step s = .next t ∧ SameTables State.reset t ∧ t.rspValid = false ∧ t.cmdReady = true ∧
      t.delivered = s.delivered ∧ t.inputs = rest) ∧
  ∀ s : State, ∃ t, exec (.clr 7) s = .next t ∧ SameTables State.reset t ∧ Answers t .ok ∧ SameHost s t

/-- R61: the offered response stays until the host takes it and is then delivered; R194: with nothing to do the block
holds its state (the step without input is the model's choice, log 10). -/
def Obligations.ResponseStaysUntilTaken : Prop :=
  (∀ (s : State) (rest : List HostInput) (r : Response), s.inputs = .take :: rest → s.rsp = some r →
    ∃ t, step s = .next t ∧ SameTables s t ∧ t.rsp = none ∧ t.delivered = s.delivered ++ [r] ∧ t.inputs = rest) ∧
  (∀ (s : State) (rest : List HostInput), s.inputs = .take :: rest → s.rsp = none →
    ∃ t, step s = .next t ∧ SameTables s t ∧ t.rsp = none ∧ t.delivered = s.delivered ∧ t.inputs = rest) ∧
  ∀ s : State, s.inputs = [] → step s = .next s

/-- R68, R176, 93 Part 1: no word and no state stops the block. -/
def Obligations.NoStepStops : Prop := ∀ s : State, SafeStep s

/-- R61: exactly one response for every accepted command, the k-th response belonging to the k-th command. That the
responses before are taken as the words are presented is the model's reading of R61 (log 3). -/
def Obligations.OneResponsePerCommandInOrder : Prop :=
  ∀ (s : State) (ws : List CmdWord), s.inputs = ws.map .command →
    ∃ (t : State) (rs : List Response),
      runSteps ws.length s = .next t ∧ t.inputs = [] ∧ rs.length = ws.length ∧ t.responses = s.responses ++ rs ∧
      ∀ k, k < ws.length →
        ∃ u v : State, runSteps k s = .next u ∧ step u = .next v ∧
          u.inputs = (ws.drop k).map .command ∧ v.rsp = rs[k]? ∧ v.rsp ≠ none

/-! ### Invariants -/

/-- The invariants of R26 hold at reset. -/
def Obligations.InvariantsHoldAtReset : Prop := State.reset.Inv

/-- R26, R35, R66: every step keeps the invariants, from every state that has them. -/
def Obligations.EveryStepKeepsTheInvariants : Prop :=
  ∀ s t : State, s.Inv → step s = .next t → t.Inv

/-- R26 item 3: any `FREQ` and any `LEN` in range can be reached together with any canonical `CODE`. -/
def Obligations.EveryLegalTripleIsReachable : Prop :=
  ∀ (f : Table Count) (l : Table Len) (c : Table Codeword),
    (∀ x v, l.get x = some v → v ≠ 0) →
    (AllAbsent c ∨
      ∃ b : Table Len, ¬ AllAbsent b ∧ (∀ x v, b.get x = some v → v ≠ 0) ∧ Kraft b ∧ assignCodes b = some c) →
    ∃ (is : List Instr) (t : State),
      runSteps is.length (State.reset.withProgram is) = .next t ∧ (∀ x, t.freq.get x = f.get x) ∧
      (∀ x, t.len.get x = l.get x) ∧ ∀ x, t.code.get x = c.get x

/-- R35: two states are equal iff the three maps are equal. -/
def Obligations.EqualMapsAreEqualTables : Prop :=
  ∀ s t : State, s.Inv → t.Inv → SameEntries s t → SameTables s t

/-! ### The system commands -/

/-- R165: `NOP` is the all-zero word, leaves everything and is answered by the all-zero response word. -/
def Obligations.NopDoesNothing : Prop :=
  encode .nop = 0 ∧
  ∀ s : State, ∃ t, exec .nop s = .next t ∧ SameTables s t ∧ SameHost s t ∧ Answers t .ok ∧ t.rspWord = some 0

/-- R166: `CLR m` empties the tables of its mask and no other, and is idempotent. -/
def Obligations.ClrEmptiesTheSelectedTables : Prop :=
  ∀ (m : BitVec 3) (s : State),
    encode (.clr m) = 0x0100000000000000 ||| m.setWidth 64 ∧
    ∃ t, exec (.clr m) s = .next t ∧
      (m.getLsbD 0 = true → AllAbsent t.freq) ∧ (m.getLsbD 0 = false → t.freq = s.freq) ∧
      (m.getLsbD 1 = true → AllAbsent t.len) ∧ (m.getLsbD 1 = false → t.len = s.len) ∧
      (m.getLsbD 2 = true → AllAbsent t.code) ∧ (m.getLsbD 2 = false → t.code = s.code) ∧
      Answers t .ok ∧ SameHost s t ∧ exec (.clr m) t = .next t

/-! ### The symbol_frequency_counter -/

/-- R82: `CNT s` counts one occurrence, exactly, or fails with `COUNT_OVERFLOW` at 2^32 - 1; counts of different
symbols commute. -/
def Obligations.CntCountsOneOccurrence : Prop :=
  ∀ (x : Symbol) (s : State),
    encode (.cnt x) = 0x1000000000000000 ||| symField x ∧
    (s.freq.get x = none →
      ∃ t, exec (.cnt x) s = .next t ∧ t.freq.get x = some 1 ∧ Answers t .ok ∧ OnlyFreqAt x s t ∧ SameHost s t) ∧
    (∀ c : Count, s.freq.get x = some c → c.toNat < 2 ^ 32 - 1 →
      ∃ (t : State) (d : Count), exec (.cnt x) s = .next t ∧ t.freq.get x = some d ∧ d.toNat = c.toNat + 1 ∧
        Answers t .ok ∧ OnlyFreqAt x s t ∧ SameHost s t) ∧
    (∀ c : Count, s.freq.get x = some c → c.toNat = 2 ^ 32 - 1 →
      ∃ t, exec (.cnt x) s = .next t ∧ SameTables s t ∧ Answers t .countOverflow ∧ SameHost s t) ∧
    ∀ y : Symbol, y ≠ x →
      ∃ t u t' u' : State, exec (.cnt x) s = .next t ∧ exec (.cnt y) t = .next u ∧
        exec (.cnt y) s = .next t' ∧ exec (.cnt x) t' = .next u' ∧ SameEntries u u'

/-- R83: `FSET s, c` loads the entry, zero included, overwriting. -/
def Obligations.FsetLoadsOneEntry : Prop :=
  ∀ (x : Symbol) (c : Count) (s : State),
    encode (.fset x c) = 0x1100000000000000 ||| symField x ||| c.setWidth 64 ∧
    ∃ t, exec (.fset x c) s = .next t ∧ t.freq.get x = some c ∧ Answers t .ok ∧ OnlyFreqAt x s t ∧ SameHost s t

/-- R84: `FGET s` answers the entry and writes no table; an absent entry and `some 0` differ in `valid`. -/
def Obligations.FgetAnswersTheEntry : Prop :=
  ∀ (x : Symbol) (s : State),
    encode (.fget x) = 0x1200000000000000 ||| symField x ∧
    ∃ t r, exec (.fget x) s = .next t ∧ t.rsp = some r ∧ SameTables s t ∧ SameHost s t ∧
      r.status = .ok ∧ r.len = 0 ∧
      (s.freq.get x = none → r.valid = false ∧ r.data = 0) ∧
      ∀ c, s.freq.get x = some c → r.valid = true ∧ r.data.toNat = c.toNat

/-! ### The huffman_tree_builder -/

/-- R101: `BUILD` and `GEN` on an empty `FREQ` fail with `EMPTY_ALPHABET` and change no table. -/
def Obligations.EmptyFreqFailsBuildAndGen : Prop :=
  ∀ s : State, AllAbsent s.freq →
    (∃ t, exec .build s = .next t ∧ SameTables s t ∧ Answers t .emptyAlphabet ∧ SameHost s t) ∧
    ∃ t, exec .gen s = .next t ∧ SameTables s t ∧ Answers t .emptyAlphabet ∧ SameHost s t

/-- R100, R113: a `BUILD` on a non-empty `FREQ` replaces the whole of `LEN`, one record per present symbol, empties
`FREQ`, leaves `CODE` and answers the number of records. -/
def Obligations.BuildReplacesLenAndConsumesFreq : Prop :=
  encode .build = 0x2000000000000000 ∧
  ∀ s : State, ¬ AllAbsent s.freq →
    ∃ t, exec .build s = .next t ∧ t.len = buildLengths s.freq ∧ SameDomain t.len s.freq ∧ AllAbsent t.freq ∧
      t.code = s.code ∧ SameHost s t ∧
      t.rsp = some (Response.mk .ok true 0 (BitVec.ofNat 256 s.freq.size)) ∧ 1 ≤ s.freq.size ∧ s.freq.size ≤ 256

/-- R120: `LSET s, l` loads a length of 1 to 255; a length of 0 fails with `BAD_OPERAND` and changes nothing. -/
def Obligations.LsetLoadsOneEntry : Prop :=
  ∀ (x : Symbol) (l : Len) (s : State),
    encode (.lset x l) = 0x2100000000000000 ||| symField x ||| l.setWidth 64 ∧
    (l = 0 → ∃ t, exec (.lset x l) s = .next t ∧ SameTables s t ∧ Answers t .badOperand ∧ SameHost s t) ∧
    (l ≠ 0 →
      ∃ t, exec (.lset x l) s = .next t ∧ t.len.get x = some l ∧ Answers t .ok ∧ OnlyLenAt x s t ∧ SameHost s t)

/-- R122: `LGET s` answers the entry and writes no table; in a state with the invariants `len = 0` comes only with
`valid = 0`. -/
def Obligations.LgetAnswersTheEntry : Prop :=
  ∀ (x : Symbol) (s : State),
    encode (.lget x) = 0x2200000000000000 ||| symField x ∧
    ∃ t r, exec (.lget x) s = .next t ∧ t.rsp = some r ∧ SameTables s t ∧ SameHost s t ∧
      r.status = .ok ∧ r.data = 0 ∧
      (s.len.get x = none → r.valid = false ∧ r.len = 0) ∧
      (∀ l, s.len.get x = some l → r.valid = true ∧ r.len = l) ∧
      (s.Inv → r.len = 0 → r.valid = false)

/-- R102: the leaves are one per present entry, zero counts included, in ascending symbol order, each with its count
as frequency. -/
def Obligations.LeavesAreTheEntriesInSymbolOrder : Prop :=
  ∀ f : Table Count,
    (leaves f).nodes.length = f.size ∧
    (∀ (k : Nat) (nd : Node), (leaves f).nodes[k]? = some nd →
      ∃ (x : Symbol) (c : Count) (fr : NodeFreq),
        nd = Node.leaf x fr ∧ f.get x = some c ∧ fr.toNat = c.toNat) ∧
    (∀ x c, f.get x = some c → ∃ (k : Nat) (fr : NodeFreq), (leaves f).nodes[k]? = some (Node.leaf x fr)) ∧
    ∀ (j k : Nat) (x y : Symbol) (fx fy : NodeFreq), j < k →
      (leaves f).nodes[j]? = some (Node.leaf x fx) → (leaves f).nodes[k]? = some (Node.leaf y fy) → x < y

/-- R105: the machine takes, among the pending nodes, the one of least frequency, and among those the one of lowest
arena index. -/
def Obligations.SelectTakesTheLeastPair : Prop :=
  ∀ (ar : Arena) (p : List NodeIdx), p ≠ [] →
    selectLowest ar p ∈ p ∧
    ∀ j ∈ p, freqOf ar (selectLowest ar p) < freqOf ar j ∨
      (freqOf ar (selectLowest ar p) = freqOf ar j ∧ selectLowest ar p ≤ j)

/-- R107: each merge lowers the number of pending nodes by one; over `n ≥ 1` leaves there are exactly `n - 1` merges,
the inner nodes stand in slots `n` to `2n - 2`, the root is `2n - 2`, and the arena holds at most 511 nodes; every
node but the root has exactly one parent. For every legal choice (R108). -/
def Obligations.MergeLoopLeavesOneRoot : Prop :=
  ∀ sel : Selector, LegalSelector sel →
    (∀ (ar : Arena) (p : List NodeIdx), 1 < p.length → (mergeOnce sel ar p).2.length + 1 = p.length) ∧
    ∀ (f : Table Count) (n : Nat), f.size = n → 1 ≤ n →
      ∃ (ar : Arena) (root : NodeIdx), buildTree sel f = (ar, [root]) ∧ root.toNat = 2 * n - 2 ∧
        ar.nodes.length = 2 * n - 1 ∧ ar.nodes.length ≤ Config.arenaSize ∧ ar.nodes.take n = (leaves f).nodes ∧
        (∀ k, n ≤ k → k < 2 * n - 1 →
          ∃ (fr : NodeFreq) (a b : NodeIdx), ar.nodes[k]? = some (Node.inner fr a b) ∧
            a.toNat < k ∧ b.toNat < k ∧ a ≠ b) ∧
        ∀ i, i < 2 * n - 2 →
          ∃! k : Nat, ∃ (fr : NodeFreq) (a b : NodeIdx), ar.nodes[k]? = some (Node.inner fr a b) ∧
            (a.toNat = i ∨ b.toNat = i)

/-- R106: no frequency sum overflows: a leaf's frequency is its count, an inner node's the exact sum of its
children's, the root's the exact sum of all counts, below 2^40. For every legal choice. -/
def Obligations.FrequencySumsAreExact : Prop :=
  ∀ (sel : Selector) (f : Table Count) (ar : Arena) (p : List NodeIdx),
    LegalSelector sel → buildTree sel f = (ar, p) →
      (∀ (k : Nat) (x : Symbol) (fr : NodeFreq), ar.nodes[k]? = some (Node.leaf x fr) →
        ∃ c, f.get x = some c ∧ fr.toNat = c.toNat) ∧
      (∀ (k : Nat) (fr : NodeFreq) (a b : NodeIdx), ar.nodes[k]? = some (Node.inner fr a b) →
        fr.toNat = (freqOf ar a).toNat + (freqOf ar b).toNat) ∧
      (freqOf ar (rootOf (ar, p))).toNat = totalCount f ∧ totalCount f < 2 ^ 40

/-- R108, C3: two legal choices give different tables of the same weighted length on `FREQ = {a:1, b:1, c:2, d:2}`. -/
def Obligations.TieBreakShowsInTheLengths : Prop :=
  LegalSelector selectHighest ∧
  ∀ f : Table Count, f = ⟨[(0x61, 1), (0x62, 1), (0x63, 2), (0x64, 2)]⟩ →
    buildLengthsWith selectLowest f = ⟨[(0x61, 2), (0x62, 2), (0x63, 2), (0x64, 2)]⟩ ∧
    buildLengthsWith selectHighest f = ⟨[(0x61, 3), (0x62, 3), (0x63, 1), (0x64, 2)]⟩ ∧
    weighted f (lenAt (buildLengthsWith selectLowest f)) = 12 ∧
    weighted f (lenAt (buildLengthsWith selectHighest f)) = 12

/-- R114: the lengths have the domain of `FREQ`; their Kraft sum is exactly 1 for two or more symbols and 1/2 for one;
so they satisfy the Kraft inequality. For every legal choice (R108). -/
def Obligations.BuiltLengthsMeetKraftWithEquality : Prop :=
  ∀ (sel : Selector) (f : Table Count), LegalSelector sel →
    SameDomain (buildLengthsWith sel f) f ∧
    (2 ≤ f.size → kraftSum (buildLengthsWith sel f) = 2 ^ Config.maxLen) ∧
    (f.size = 1 → 2 * kraftSum (buildLengthsWith sel f) = 2 ^ Config.maxLen) ∧
    Kraft (buildLengthsWith sel f)

/-- R118: for `n ≥ 2` every length is 1 to `n - 1`, at most 255, for `n = 1` it is 1, for every legal choice; the bound
is attained by the counts 1, 1, 2, 3, 5, 8. -/
def Obligations.BuiltLengthsAreInRange : Prop :=
  (∀ (sel : Selector) (f : Table Count) (x : Symbol) (l : Len), LegalSelector sel →
    (buildLengthsWith sel f).get x = some l →
      1 ≤ l.toNat ∧ (2 ≤ f.size → l.toNat ≤ f.size - 1 ∧ f.size - 1 ≤ 255) ∧ (f.size = 1 → l = 1)) ∧
  buildLengths ⟨[(0x61, 1), (0x62, 1), (0x63, 2), (0x64, 3), (0x65, 5), (0x66, 8)]⟩ =
    ⟨[(0x61, 5), (0x62, 5), (0x63, 4), (0x64, 3), (0x65, 2), (0x66, 1)]⟩

/-- R115: no assignment of lengths of at least 1 that satisfies the Kraft inequality, so none of a prefix code, has a
smaller weighted length than the builder's. For every legal choice. -/
def Obligations.BuiltLengthsAreOptimal : Prop :=
  ∀ (sel : Selector) (f : Table Count) (len : Symbol → Nat), LegalSelector sel →
    (∀ x ∈ f.dom, 1 ≤ len x) →
    (f.dom.map fun x => (1 / 2 : ℚ) ^ len x).sum ≤ 1 →
      weighted f (lenAt (buildLengthsWith sel f)) ≤ weighted f len

/-- R115: for two or more symbols the weighted length is the sum of the frequencies of all inner nodes. -/
def Obligations.WeightedLengthIsTheInnerSum : Prop :=
  ∀ (sel : Selector) (f : Table Count), LegalSelector sel → 2 ≤ f.size →
    weighted f (lenAt (buildLengthsWith sel f)) = ((buildTree sel f).1.nodes.map Node.innerFrequency).sum

/-! ### The canonical_huffman_assigner -/

/-- R131: `ASSIGN` on an empty `LEN` fails with `EMPTY_ALPHABET` and changes no table. -/
def Obligations.EmptyLenFailsAssign : Prop :=
  ∀ s : State, AllAbsent s.len →
    ∃ t, exec .assign s = .next t ∧ SameTables s t ∧ Answers t .emptyAlphabet ∧ SameHost s t

/-- R130, R141: on a non-empty `LEN`, `ASSIGN` succeeds exactly when the lengths satisfy the Kraft inequality; else it
fails with `CODE_OVERFLOW` and changes no table. -/
def Obligations.AssignSucceedsExactlyOnKraft : Prop :=
  encode .assign = 0x3000000000000000 ∧
  ∀ s : State, ¬ AllAbsent s.len →
    (Kraft s.len →
      ∃ t codes, exec .assign s = .next t ∧ assignCodes s.len = some codes ∧ t.code = codes ∧ AllAbsent t.len ∧
        t.freq = s.freq ∧ SameHost s t ∧
        t.rsp = some (Response.mk .ok true 0 (BitVec.ofNat 256 s.len.size))) ∧
    (¬ Kraft s.len → ∃ t, exec .assign s = .next t ∧ SameTables s t ∧ Answers t .codeOverflow ∧ SameHost s t)

/-- R142: a successful `ASSIGN` replaces the whole of `CODE`: a codeword for every present symbol of `LEN`, of its length,
with its assigned code, and none for any other symbol; `LEN` is emptied, the answer is the number of codewords. -/
def Obligations.AssignWritesOneCodewordPerLength : Prop :=
  ∀ s t : State, exec .assign s = .next t → t.status = some .ok →
    SameDomain t.code s.len ∧ assignCodes s.len = some t.code ∧ AllAbsent t.len ∧ t.freq = s.freq ∧
    (∀ x l, s.len.get x = some l → ∃ w, t.code.get x = some w ∧ w.len = l ∧ w.suffix.toNat < 2 ^ l.toNat) ∧
    t.rsp = some (Response.mk .ok true 0 (BitVec.ofNat 256 t.code.size)) ∧ t.code.size = s.len.size

/-- R133: the records are sorted ascending by (length, symbol), strictly, are exactly the entries of the table, and
come in the order of a scan by length, then by symbol. -/
def Obligations.RecordsAreSortedByLengthThenSymbol : Prop :=
  ∀ t : Table Len,
    (sortedRecords t).Pairwise (fun a b => a.1 < b.1 ∨ (a.1 = b.1 ∧ a.2 < b.2)) ∧
    (∀ l x, (l, x) ∈ sortedRecords t ↔ t.get x = some l) ∧
    ((∀ x l, t.get x = some l → l ≠ 0) → sortedRecords t = scanRecords t)

/-- R135, R140: padding to a longer length multiplies `code` by the power of two, and the 256-bit register never
overflows: not in the shifts, not in the increment, not when the suffix is taken. -/
def Obligations.CodeRegisterNeverOverflows : Prop :=
  ∀ (l : Len) (w : Walk), w.length ≤ l → w.code.toNat ≤ 2 ^ w.length.toNat →
    ∃ v, padTo l Config.maxLen w = v ∧ v.length = l ∧
      v.code.toNat = w.code.toNat * 2 ^ (l.toNat - w.length.toNat) ∧ v.code.toNat ≤ 2 ^ l.toNat ∧
      (¬ codeLimit v.length ≤ v.code →
        v.code.toNat < 2 ^ l.toNat ∧ (v.code + 1).toNat = v.code.toNat + 1 ∧
        v.codeword.len = l ∧ v.codeword.suffix.toNat = v.code.toNat)

/-- R139: the code of record `i` is `Σ_{j<i} 2^(l_i - l_j)`; in particular 0 for the first, and one more than the one
before, shifted, for the others. -/
def Obligations.CodesHaveTheClosedForm : Prop :=
  ∀ (t : Table Len) (c : Table Codeword) (recs : List Record), assignCodes t = some c → sortedRecords t = recs →
    (∀ i, i < recs.length →
      ∃ w, c.get (recAt recs i).2 = some w ∧ w.len = (recAt recs i).1 ∧ w.suffix.toNat = codeSum recs i) ∧
    codeSum recs 0 = 0 ∧
    ∀ i, 0 < i → i < recs.length →
      codeSum recs i = (codeSum recs (i - 1) + 1) * 2 ^ ((recAt recs i).1.toNat - (recAt recs (i - 1)).1.toNat)

/-- R136: codewords of equal length are consecutive integers in symbol order. -/
def Obligations.EqualLengthCodesAreConsecutive : Prop :=
  ∀ (t : Table Len) (c : Table Codeword) (x y : Symbol) (v w : Codeword), assignCodes t = some c →
    x < y → c.get x = some v → c.get y = some w → v.len = w.len →
    (∀ z u, x < z → z < y → c.get z = some u → u.len ≠ v.len) →
      w.suffix.toNat = v.suffix.toNat + 1

/-- R137: no codeword is a prefix of another, as bit strings and in the arithmetic form. -/
def Obligations.AssignedCodesArePrefixFree : Prop :=
  ∀ (t : Table Len) (c : Table Codeword), assignCodes t = some c →
    PrefixFree c ∧
    ∀ x y v w, x ≠ y → c.get x = some v → c.get y = some w → v.len ≤ w.len →
      w.suffix.toNat / 2 ^ (w.len.toNat - v.len.toNat) ≠ v.suffix.toNat

/-- R144: the first record's codeword is all zeros; codes increase along the sorted order as left-aligned strings; if
the Kraft sum is exactly 1 the last is all ones; a single record gets the code 0. -/
def Obligations.FirstCodeZerosLastCodeOnes : Prop :=
  ∀ (t : Table Len) (c : Table Codeword) (recs : List Record), assignCodes t = some c → sortedRecords t = recs →
    (recs ≠ [] → c.get (recAt recs 0).2 = some ⟨(recAt recs 0).1, 0⟩) ∧
    (∀ i j v w, i < j → j < recs.length → c.get (recAt recs i).2 = some v → c.get (recAt recs j).2 = some w →
      v.suffix.toNat * 2 ^ (Config.maxLen - v.len.toNat) < w.suffix.toNat * 2 ^ (Config.maxLen - w.len.toNat)) ∧
    (kraftSum t = 2 ^ Config.maxLen →
      ∃ w, c.get (recAt recs (recs.length - 1)).2 = some w ∧ w.suffix.toNat = 2 ^ w.len.toNat - 1) ∧
    ∀ x l, (∀ y, t.get y = if y = x then some l else none) →
      ∀ y, c.get y = if y = x then some ⟨l, 0⟩ else none

/-- R143: `CGET s` answers the entry and writes no table; `data[255]` is zero, and a codeword of the data model leaves
`data[255:l]` zero and differs from an absent entry in `len`. -/
def Obligations.CgetAnswersTheEntry : Prop :=
  ∀ (x : Symbol) (s : State),
    encode (.cget x) = 0x3200000000000000 ||| symField x ∧
    ∃ t r, exec (.cget x) s = .next t ∧ t.rsp = some r ∧ SameTables s t ∧ SameHost s t ∧ r.status = .ok ∧
      (s.code.get x = none → r.valid = false ∧ r.len = 0 ∧ r.data = 0) ∧
      ∀ w, s.code.get x = some w →
        r.valid = true ∧ r.len = w.len ∧ r.data.toNat = w.suffix.toNat ∧ r.data.getLsbD 255 = false ∧
        (w.wf → r.data.toNat < 2 ^ r.len.toNat ∧ r.len ≠ 0)

/-! ### The huffman_code_table_gen -/

/-- R150: `GEN` on a non-empty `FREQ` leaves in `CODE` the codes of the lengths built from `FREQ`, empties `FREQ` and
`LEN`, and answers the number of codewords; on an empty `FREQ` it changes nothing. -/
def Obligations.GenReplacesCodeAndConsumesFreqAndLen : Prop :=
  encode .gen = 0x4000000000000000 ∧
  (∀ s : State, ¬ AllAbsent s.freq →
    ∃ t codes, exec .gen s = .next t ∧ assignCodes (buildLengths s.freq) = some codes ∧ t.code = codes ∧
      AllAbsent t.freq ∧ AllAbsent t.len ∧ SameHost s t ∧
      t.rsp = some (Response.mk .ok true 0 (BitVec.ofNat 256 s.freq.size))) ∧
  ∀ s : State, AllAbsent s.freq →
    ∃ t, exec .gen s = .next t ∧ SameTables s t ∧ Answers t .emptyAlphabet ∧ SameHost s t

/-- R151: from any state, `GEN` is `BUILD` and then, if `BUILD` succeeded, `ASSIGN`, which then succeeds. -/
def Obligations.GenIsBuildThenAssign : Prop :=
  ∀ s : State, ∃ b g : State, exec .build s = .next b ∧ exec .gen s = .next g ∧
    (b.status ≠ some .ok → g = b) ∧
    (b.status = some .ok → ∃ a : State, exec .assign b = .next a ∧ a.status = some .ok ∧ g = a ∧ g.rsp = b.rsp)

/-- R152: lengths from the builder never overflow the codes, for every legal choice: neither in `GEN` nor in an
`ASSIGN` after a successful `BUILD`. -/
def Obligations.BuiltLengthsNeverOverflow : Prop :=
  (∀ (sel : Selector) (f : Table Count), LegalSelector sel → assignCodes (buildLengthsWith sel f) ≠ none) ∧
  (∀ s t : State, exec .gen s = .next t → t.status ≠ some .codeOverflow) ∧
  ∀ s t u v : State, exec .build s = .next t → t.status = some .ok → u.len = t.len → exec .assign u = .next v →
    v.status ≠ some .codeOverflow

/-- R155: the table of a successful `GEN` has one codeword per symbol of `FREQ`, is prefix-free, is complete for two or
more symbols, and its weighted length is minimal. -/
def Obligations.GeneratedTableIsCompleteAndOptimal : Prop :=
  ∀ s t : State, exec .gen s = .next t → t.status = some .ok →
    SameDomain t.code s.freq ∧ PrefixFree t.code ∧
    (2 ≤ s.freq.size → codeKraftSum t.code = 2 ^ Config.maxLen) ∧
    ∀ len : Symbol → Nat, (∀ x ∈ s.freq.dom, 1 ≤ len x) →
      (s.freq.dom.map fun x => (1 / 2 : ℚ) ^ len x).sum ≤ 1 →
        weighted s.freq (fun x => match t.code.get x with | none => 0 | some w => w.len.toNat) ≤ weighted s.freq len

/-- R157, R112: one symbol, whatever its count, gets bit-length 1 and the codeword `(1, 0)`; on the empty alphabet `GEN`
fails and `CODE` keeps what it held. -/
def Obligations.DegenerateAlphabetsThroughThePipeline : Prop :=
  (∀ (s : State) (x : Symbol) (c : Count), (∀ y, s.freq.get y = if y = x then some c else none) →
    (∃ t, exec .build s = .next t ∧ t.status = some .ok ∧ ∀ y, t.len.get y = if y = x then some 1 else none) ∧
    ∃ t, exec .gen s = .next t ∧ t.status = some .ok ∧
      (∀ y, t.code.get y = if y = x then some ⟨1, 0⟩ else none) ∧ AllAbsent t.freq ∧ AllAbsent t.len) ∧
  ∀ s : State, ∃ t u, exec (.clr 1) s = .next t ∧ exec .gen t = .next u ∧ Answers u .emptyAlphabet ∧
    u.code = s.code ∧ u.len = s.len

/-! ### The operations of the document over command sequences -/

/-- R86: `CLR 1` and one `CNT` per symbol of a text leave in `FREQ` the number of occurrences of each symbol; the
counts sum to the length of the text; where a symbol occurs more than 2^32 - 1 times, to the number of `CNT`
commands answered `OK`. -/
def Obligations.CountingATextCountsOccurrences : Prop :=
  ∀ (s : State) (text : List Symbol),
    ∃ (t : State) (r : Response) (rs : List Response),
      runSteps (text.length + 1) (s.withProgram (Pseudo.fclr.expand ++ (Pseudo.count text).expand)) = .next t ∧
      t.inputs = [] ∧ t.len = s.len ∧ t.code = s.code ∧
      t.responses = s.responses ++ r :: rs ∧ rs.length = text.length ∧ r.status = .ok ∧
      (∀ y, t.freq.get y =
        if text.count y = 0 then none else some (BitVec.ofNat 32 (min (text.count y) (2 ^ 32 - 1)))) ∧
      totalCount t.freq = (rs.filter fun q => q.status = .ok).length ∧
      ((∀ y, text.count y ≤ 2 ^ 32 - 1) → (∀ q ∈ rs, q.status = .ok) ∧ totalCount t.freq = text.length)

/-- R87: the counts do not depend on the order of the text. -/
def Obligations.CountingIgnoresTheOrder : Prop :=
  ∀ (s : State) (text text' : List Symbol), text.Perm text' →
    ∃ t t' : State,
      runSteps text.length (s.withProgram (Pseudo.count text).expand) = .next t ∧
      runSteps text'.length (s.withProgram (Pseudo.count text').expand) = .next t' ∧ SameEntries t t'

/-- R153: the pipeline on a text: every response `OK`, and `CODE` holds the codes of the lengths built from the counts
of the text, one entry per distinct symbol. -/
def Obligations.PipelineOnATextLeavesItsCodes : Prop :=
  ∀ (s : State) (text : List Symbol), text ≠ [] → (∀ y, text.count y ≤ 2 ^ 32 - 1) →
    ∃ (t : State) (rs : List Response),
      runSteps (text.length + 2) (s.withProgram (Pseudo.pipe text).expand) = .next t ∧ t.inputs = [] ∧
      t.responses = s.responses ++ rs ∧ rs.length = text.length + 2 ∧ (∀ r ∈ rs, r.status = .ok) ∧
      (∀ f : Table Count,
        (∀ y, f.get y = if text.count y = 0 then none else some (BitVec.ofNat 32 (text.count y))) →
          assignCodes (buildLengths f) = some t.code) ∧
      ∀ y, t.code.get y = none ↔ y ∉ text

/-! ### Failures, frames, hazards -/

/-- R176: a failing command writes nothing; its response is the status alone. -/
def Obligations.FailingCommandWritesNothing : Prop :=
  ∀ (i : Instr) (s t : State), exec i s = .next t → t.status ≠ some .ok →
    SameTables s t ∧ SameHost s t ∧ ∃ e, e ≠ Status.ok ∧ Answers t e

/-- R177: the cause of each failure, the commands that raise it, its code, and that it records nothing but its status. -/
def Obligations.EachFailureHasItsCause : Prop :=
  (∀ (i : Instr) (s : State), ∃ t, exec i s = .next t ∧
    (t.status = some .emptyAlphabet ↔
      ((i = .build ∨ i = .gen) ∧ AllAbsent s.freq) ∨ (i = .assign ∧ AllAbsent s.len)) ∧
    (t.status = some .countOverflow ↔ ∃ x c, i = .cnt x ∧ s.freq.get x = some c ∧ c.toNat = 2 ^ 32 - 1) ∧
    (t.status = some .codeOverflow ↔ i = .assign ∧ ¬ Kraft s.len) ∧
    (t.status = some .badOperand ↔ ∃ x, i = .lset x 0) ∧
    t.status ≠ some .illegalCommand ∧
    ∀ e, t.status = some e → e ≠ .ok → Answers t e) ∧
  (∀ (s : State) (w : CmdWord) (rest : List HostInput), s.inputs = .command w :: rest →
    ∃ t, step s = .next t ∧ (t.status = some .illegalCommand ↔ IsIllegal w)) ∧
  Status.toCode .emptyAlphabet = 1 ∧ Status.toCode .countOverflow = 2 ∧ Status.toCode .codeOverflow = 3 ∧
  Status.toCode .badOperand = 4 ∧ Status.toCode .illegalCommand = 5

/-- R185: after a failing command every command does what it would have done after a `NOP`, and the failing command
fails again. -/
def Obligations.FailureIsLikeNop : Prop :=
  ∀ (i : Instr) (s t : State), exec i s = .next t → t.status ≠ some .ok →
    exec i t = .next t ∧
    ∃ n : State, exec .nop s = .next n ∧ ∀ j : Instr, ∃ u, exec j t = .next u ∧ exec j n = .next u

/-- R44: reading or loading or clearing twice leaves what once leaves. -/
def Obligations.ReadsAndLoadsAreIdempotent : Prop :=
  ∀ (i : Instr) (s t : State),
    ((∃ x, i = .fget x) ∨ (∃ x, i = .lget x) ∨ (∃ x, i = .cget x) ∨ (∃ x c, i = .fset x c) ∨
      (∃ x l, i = .lset x l) ∨ (∃ m, i = .clr m)) →
    exec i s = .next t → exec i t = .next t

/-- R206: `BUILD` right after a successful `BUILD` or `GEN` fails with `EMPTY_ALPHABET`, and so does `ASSIGN` right
after a successful `ASSIGN` or `GEN`; neither changes a table. -/
def Obligations.ImmediateRepetitionFails : Prop :=
  (∀ (i : Instr) (s t : State), i = .build ∨ i = .gen → exec i s = .next t → t.status = some .ok →
    ∃ u, exec .build t = .next u ∧ Answers u .emptyAlphabet ∧ SameTables t u) ∧
  ∀ (i : Instr) (s t : State), i = .assign ∨ i = .gen → exec i s = .next t → t.status = some .ok →
    ∃ u, exec .assign t = .next u ∧ Answers u .emptyAlphabet ∧ SameTables t u

/-- R49: what each command may write, that it writes none of the host's side, and that its response depends on
nothing but what it reads. -/
def Obligations.CommandsKeepTheirReadAndWriteSets : Prop :=
  (∀ (i : Instr) (s t : State), exec i s = .next t →
    (writesFreq i = false → t.freq = s.freq) ∧ (writesLen i = false → t.len = s.len) ∧
    (writesCode i = false → t.code = s.code) ∧ SameHost s t) ∧
  ∀ (i : Instr) (s u : State), ReadsSame i s u →
    ∃ t v, exec i s = .next t ∧ exec i u = .next v ∧ t.rsp = v.rsp

/-- R123, R138, R154: what `BUILD` and `GEN` write is a function of the map `FREQ`, what `ASSIGN` writes of the map
`LEN`, whatever else the two states hold. -/
def Obligations.ResultsDependOnTheInputMapAlone : Prop :=
  (∀ s u t v : State, (∀ x, s.freq.get x = u.freq.get x) → exec .build s = .next t → exec .build u = .next v →
    t.status = some .ok → t.len = v.len) ∧
  (∀ s u t v : State, (∀ x, s.freq.get x = u.freq.get x) → exec .gen s = .next t → exec .gen u = .next v →
    t.status = some .ok → t.code = v.code) ∧
  ∀ s u t v : State, (∀ x, s.len.get x = u.len.get x) → exec .assign s = .next t → exec .assign u = .next v →
    t.status = some .ok → t.code = v.code
end

