-- ==== Sys2Proof/Laws/Table.lean ====
section
/-! SUPPORT. What reading and writing a table does, once: read after write, the canonical form kept, the present
entries as a list. -/

namespace Sys2Proof.Machine

variable {α : Type}

/-! ### Reading -/

theorem lookupCell_insertCell (s y : Symbol) (v : α) (cs : List (Symbol × α)) :
    lookupCell y (insertCell s v cs) = if y = s then some v else lookupCell y cs := by
  induction cs with
  | nil =>
    by_cases h : s = y
    · simp [insertCell, lookupCell, h]
    · simp [insertCell, lookupCell, h, Ne.symm h]
  | cons c cs ih =>
    obtain ⟨k, w⟩ := c
    by_cases h1 : s < k
    · by_cases h : s = y
      · subst h; simp [insertCell, lookupCell, h1]
      · simp [insertCell, lookupCell, h1, h, Ne.symm h]
    · by_cases h2 : s = k
      · subst h2
        by_cases h : s = y
        · subst h; simp [insertCell, lookupCell, h1]
        · simp [insertCell, lookupCell, h1, h, Ne.symm h]
      · by_cases h : k = y
        · subst h; simp [insertCell, lookupCell, h1, h2, Ne.symm h2]
        · simp [insertCell, lookupCell, h1, h2, h, ih]

/-- Read after write: the entry written gives the value, every other entry what it gave before. -/
theorem Table.get_set (t : Table α) (s y : Symbol) (v : α) :
    (t.set s v).get y = if y = s then some v else t.get y := lookupCell_insertCell s y v t.cells

@[simp] theorem Table.get_set_self (t : Table α) (s : Symbol) (v : α) : (t.set s v).get s = some v := by
  simp [Table.get_set]

theorem Table.get_set_of_ne (t : Table α) {s y : Symbol} (v : α) (h : y ≠ s) : (t.set s v).get y = t.get y := by
  simp [Table.get_set, h]

@[simp] theorem Table.get_empty (s : Symbol) : (Table.empty : Table α).get s = none := rfl

/-! ### The canonical form -/

theorem map_fst_insertCell (s : Symbol) (v : α) (cs : List (Symbol × α)) :
    ∀ k ∈ (insertCell s v cs).map Prod.fst, k = s ∨ k ∈ cs.map Prod.fst := by
  induction cs with
  | nil => simp [insertCell]
  | cons c cs ih =>
    obtain ⟨k, w⟩ := c
    unfold insertCell
    split
    · simp
    · split
      · rintro j hj
        simp only [List.map_cons, List.mem_cons] at hj ⊢
        tauto
      · rintro j hj
        simp only [List.map_cons, List.mem_cons] at hj ⊢
        rcases hj with rfl | hj
        · exact .inr (.inl rfl)
        · rcases ih j hj with h | h <;> tauto

theorem insertCell_pairwise (s : Symbol) (v : α) (cs : List (Symbol × α))
    (h : (cs.map Prod.fst).Pairwise (· < ·)) : ((insertCell s v cs).map Prod.fst).Pairwise (· < ·) := by
  induction cs with
  | nil => simp [insertCell]
  | cons c cs ih =>
    obtain ⟨k, w⟩ := c
    simp only [List.map_cons, List.pairwise_cons] at h
    unfold insertCell
    split
    case isTrue hlt =>
      simp only [List.map_cons, List.pairwise_cons, List.mem_cons]
      refine ⟨?_, h⟩
      rintro j (rfl | hj)
      · exact hlt
      · exact BitVec.lt_trans hlt (h.1 j hj)
    case isFalse hnlt =>
      split
      case isTrue heq =>
        subst heq
        simpa only [List.map_cons, List.pairwise_cons] using h
      case isFalse hne =>
        simp only [List.map_cons, List.pairwise_cons]
        refine ⟨fun j hj => ?_, ih h.2⟩
        rcases map_fst_insertCell s v cs j hj with rfl | hj
        · have hn : j.toNat ≠ k.toNat := fun e => hne (BitVec.eq_of_toNat_eq e)
          simp only [BitVec.lt_def] at hnlt ⊢
          omega
        · exact h.1 j hj

/-- A write keeps the canonical form. -/
theorem Table.set_wf (t : Table α) (s : Symbol) (v : α) (h : t.wf = true) : (t.set s v).wf = true := by
  simp only [Table.wf, decide_eq_true_eq] at h ⊢
  exact insertCell_pairwise s v t.cells h

@[simp] theorem Table.empty_wf : (Table.empty : Table α).wf = true := by
  simp [Table.wf, Table.empty]

/-! ### The present entries -/

theorem mem_symbols (s : Symbol) : s ∈ symbols := by
  simp only [symbols, Config.nSym, List.mem_map, List.mem_range]
  exact ⟨s.toNat, s.isLt, by simp⟩

theorem symbols_pairwise : symbols.Pairwise (· < ·) := by
  simp only [symbols, Config.nSym, List.pairwise_map]
  refine List.Pairwise.imp_of_mem ?_ (List.pairwise_lt_range (n := 256))
  intro a b ha hb hab
  simp only [List.mem_range] at ha hb
  simp only [BitVec.lt_def, BitVec.toNat_ofNat]
  omega

theorem symbols_nodup : symbols.Nodup :=
  symbols_pairwise.imp fun h => by
    rintro rfl
    exact absurd h (BitVec.lt_irrefl _)

/-- The entries are exactly the pairs that reading gives. -/
theorem Table.mem_entries (t : Table α) (s : Symbol) (v : α) : (s, v) ∈ t.entries ↔ t.get s = some v := by
  simp only [Table.entries, List.mem_filterMap, Option.map_eq_some_iff, Prod.mk.injEq]
  constructor
  · rintro ⟨k, -, w, hw, rfl, rfl⟩
    exact hw
  · exact fun h => ⟨s, mem_symbols s, v, h, rfl, rfl⟩

theorem Table.entries_pairwise (t : Table α) : t.entries.Pairwise fun a b => a.1 < b.1 := by
  refine List.Pairwise.filterMap _ ?_ symbols_pairwise
  intro a b hab c hc d hd
  simp only [Option.map_eq_some_iff] at hc hd
  obtain ⟨v, -, rfl⟩ := hc
  obtain ⟨w, -, rfl⟩ := hd
  exact hab

theorem Table.dom_pairwise (t : Table α) : t.dom.Pairwise (· < ·) := by
  simpa [Table.dom, List.pairwise_map] using t.entries_pairwise

theorem Table.mem_dom (t : Table α) (s : Symbol) : s ∈ t.dom ↔ t.get s ≠ none := by
  simp only [Table.dom, List.mem_map, Prod.exists, exists_and_right, exists_eq_right, Table.mem_entries]
  cases t.get s <;> simp

theorem Table.dom_nodup (t : Table α) : t.dom.Nodup :=
  t.dom_pairwise.imp fun h => by
    rintro rfl
    exact absurd h (BitVec.lt_irrefl _)

/-- A table has no entry iff every entry is absent. -/
theorem Table.size_eq_zero (t : Table α) : t.size = 0 ↔ ∀ s, t.get s = none := by
  simp only [Table.size, List.length_eq_zero_iff, List.eq_nil_iff_forall_not_mem, Prod.forall, Table.mem_entries]
  constructor
  · intro h s
    cases hs : t.get s with
    | none => rfl
    | some v => exact absurd hs (h s v)
  · intro h s v
    simp [h s]

theorem Table.size_le (t : Table α) : t.size ≤ 256 :=
  (List.length_filterMap_le _ _).trans (by simp [symbols, Config.nSym])

@[simp] theorem Table.size_empty : (Table.empty : Table α).size = 0 := by
  simp [Table.size_eq_zero]

/-- The entries depend on the map alone. -/
theorem Table.entries_congr {t u : Table α} (h : ∀ s, t.get s = u.get s) : t.entries = u.entries := by
  simp only [Table.entries, h]

end Sys2Proof.Machine
end

