-- ==== Sys2Proof/Laws/Assigner.lean ====
section
/-! SUPPORT. The equations of the assigner's walk. -/

namespace Sys2Proof.Machine

theorem walkRecords_nil (w : Walk) (out : Table Codeword) : walkRecords [] w out = some out := rfl

theorem walkRecords_overflow {l : Len} {x : Symbol} {recs : List Record} {w : Walk} {out : Table Codeword}
    (h : codeLimit (padTo l Config.maxLen w).length ≤ (padTo l Config.maxLen w).code) :
    walkRecords ((l, x) :: recs) w out = none := by
  simp [walkRecords, h]

theorem walkRecords_cons {l : Len} {x : Symbol} {recs : List Record} {w : Walk} {out : Table Codeword}
    (h : ¬ codeLimit (padTo l Config.maxLen w).length ≤ (padTo l Config.maxLen w).code) :
    walkRecords ((l, x) :: recs) w out =
      walkRecords recs { padTo l Config.maxLen w with code := (padTo l Config.maxLen w).code + 1 }
        (out.set x (padTo l Config.maxLen w).codeword) := by
  simp [walkRecords, h]

/-- The assignment of codes is the walk over the sorted records from the first record's length. -/
theorem assignCodes_eq (t : Table Len) :
    assignCodes t =
      walkRecords (sortedRecords t) { length := (recAt (sortedRecords t) 0).1, code := 0 } Table.empty := by
  unfold assignCodes
  split
  · next h => rw [h]; rfl
  · next l x recs h => rw [h]; rfl

/-- The walk writes codewords only, so it keeps the canonical form. -/
theorem walkRecords_wf {recs : List Record} {w : Walk} {out c : Table Codeword} (h : out.wf = true)
    (hw : walkRecords recs w out = some c) : c.wf = true := by
  induction recs generalizing w out with
  | nil => simp only [walkRecords_nil, Option.some.injEq] at hw; exact hw ▸ h
  | cons r recs ih =>
    obtain ⟨l, x⟩ := r
    by_cases hc : codeLimit (padTo l Config.maxLen w).length ≤ (padTo l Config.maxLen w).code
    · rw [walkRecords_overflow hc] at hw; cases hw
    · rw [walkRecords_cons hc] at hw
      exact ih (Table.set_wf _ _ _ h) hw

theorem assignCodes_wf {t : Table Len} {c : Table Codeword} (h : assignCodes t = some c) : c.wf = true :=
  walkRecords_wf Table.empty_wf (assignCodes_eq t ▸ h)

/-- The sorted records are the entries, in another order. -/
theorem sortedRecords_perm (t : Table Len) : (sortedRecords t).Perm (t.entries.map fun e => (e.2, e.1)) :=
  List.perm_insertionSort _ _

end Sys2Proof.Machine
end

