-- ==== Sys2Proof/Laws/Builder.lean ====
section
/-! SUPPORT. Writing and reading the arena; the builder's choice is a legal one; the equations of the merge loop and of the traversal. -/

namespace Sys2Proof.Machine

/-! ### The arena -/

@[simp] theorem Arena.push_nodes {ar : Arena} (nd : Node) (h : ar.nodes.length < Config.arenaSize) :
    (ar.push nd).nodes = ar.nodes ++ [nd] := by
  simp [Arena.push, h]

theorem Arena.push_full {ar : Arena} (nd : Node) (h : ¬ ar.nodes.length < Config.arenaSize) : ar.push nd = ar := by
  simp [Arena.push, h]

theorem Arena.next_toNat (ar : Arena) : ar.next.toNat = ar.nodes.length := by
  have h := ar.fits
  simp only [Config.arenaSize] at h
  simp only [Arena.next, BitVec.toNat_ofNat]
  omega

/-- The new node stands in the slot that `next` named (41 R104). -/
theorem Arena.slot_push_next {ar : Arena} (nd : Node) (h : ar.nodes.length < Config.arenaSize) :
    (ar.push nd).slot ar.next = some nd := by
  simp [Arena.slot, Arena.next_toNat, h]

/-- Writing the next slot leaves every slot below it as it was. -/
theorem Arena.slot_push_below {ar : Arena} {i : NodeIdx} (nd : Node) (h : i.toNat < ar.nodes.length) :
    (ar.push nd).slot i = ar.slot i := by
  by_cases hf : ar.nodes.length < Config.arenaSize
  · simp only [Arena.slot, Arena.push_nodes nd hf]
    exact List.getElem?_append_left h
  · rw [Arena.push_full nd hf]

@[simp] theorem leaves_nodes (f : Table Count) : (leaves f).nodes = leafNodes f := rfl

theorem leaves_length (f : Table Count) : (leaves f).nodes.length = f.size := by
  simp [leafNodes, Table.size]

@[simp] theorem initialPending_length (n : Nat) : (initialPending n).length = n := by simp [initialPending]

theorem mem_initialPending {n : Nat} (hn : n ≤ Config.arenaSize) (i : NodeIdx) :
    i ∈ initialPending n ↔ i.toNat < n := by
  simp only [Config.arenaSize] at hn
  simp only [initialPending, List.mem_map, List.mem_range]
  constructor
  · rintro ⟨k, hk, rfl⟩
    simp only [BitVec.toNat_ofNat]
    omega
  · exact fun h => ⟨i.toNat, h, BitVec.ofNat_toNat 9 i ▸ by simp⟩

/-! ### The choice -/

theorem selectLowest_cons (ar : Arena) (i j : NodeIdx) (rest : List NodeIdx) :
    selectLowest ar (i :: j :: rest) =
      if nodeBefore ar i (selectLowest ar (j :: rest)) then i else selectLowest ar (j :: rest) := rfl

theorem nodeBefore_le {ar : Arena} {i j : NodeIdx} (h : nodeBefore ar i j = true) : freqOf ar i ≤ freqOf ar j := by
  simp only [nodeBefore, Bool.or_eq_true, Bool.and_eq_true, decide_eq_true_eq] at h
  rcases h with h | ⟨h, -⟩
  · exact BitVec.le_of_lt h
  · exact h ▸ BitVec.le_refl _

theorem not_nodeBefore_le {ar : Arena} {i j : NodeIdx} (h : ¬ nodeBefore ar i j = true) : freqOf ar j ≤ freqOf ar i := by
  simp only [nodeBefore, Bool.or_eq_true, Bool.and_eq_true, decide_eq_true_eq, not_or] at h
  exact BitVec.not_lt.mp h.1

/-- The tie-break of the machine is one of the legal choices (41 R105, R108). -/
theorem selectLowest_legal : LegalSelector selectLowest := by
  intro ar p
  induction p with
  | nil => exact fun h => absurd rfl h
  | cons i rest ih =>
    intro _
    cases rest with
    | nil => simp [selectLowest]
    | cons j rest =>
      obtain ⟨hmem, hle⟩ := ih (by simp)
      rw [selectLowest_cons]
      split
      case isTrue h =>
        refine ⟨by simp, fun k hk => ?_⟩
        rcases List.mem_cons.mp hk with rfl | hk
        · exact BitVec.le_refl _
        · exact BitVec.le_trans (nodeBefore_le h) (hle k hk)
      case isFalse h =>
        refine ⟨List.mem_cons_of_mem _ hmem, fun k hk => ?_⟩
        rcases List.mem_cons.mp hk with rfl | hk
        · exact not_nodeBefore_le h
        · exact hle k hk

/-! ### The merge loop and the traversal -/

theorem mergeLoop_done {sel : Selector} {k : Nat} {ar : Arena} {p : List NodeIdx} (h : p.length ≤ 1) :
    mergeLoop sel k ar p = (ar, p) := by
  cases k with
  | zero => rfl
  | succ k => simp [mergeLoop, Nat.not_lt.mpr h]

theorem mergeLoop_step {sel : Selector} {k : Nat} {ar : Arena} {p : List NodeIdx} (h : 1 < p.length) :
    mergeLoop sel (k + 1) ar p = mergeLoop sel k (mergeOnce sel ar p).1 (mergeOnce sel ar p).2 := by
  simp [mergeLoop, h]

theorem visit_leaf {ar : Arena} {n k : Nat} {i : NodeIdx} {depth : Len} {out : Table Len} {x : Symbol} {fr : NodeFreq}
    (h : ar.slot i = some (.leaf x fr)) : visit ar n (k + 1) i depth out = out.set x (emittedLen n depth) := by
  simp [visit, h]

theorem visit_inner {ar : Arena} {n k : Nat} {i : NodeIdx} {depth : Len} {out : Table Len} {fr : NodeFreq}
    {a b : NodeIdx}
    (h : ar.slot i = some (.inner fr a b)) :
    visit ar n (k + 1) i depth out = visit ar n k b (depth + 1) (visit ar n k a (depth + 1) out) := by
  simp [visit, h]

/-- The traversal writes records only, so it keeps the canonical form. -/
theorem visit_wf (ar : Arena) (n k : Nat) (i : NodeIdx) (depth : Len) (out : Table Len) (h : out.wf = true) :
    (visit ar n k i depth out).wf = true := by
  induction k generalizing i depth out with
  | zero => exact h
  | succ k ih =>
    unfold visit
    split
    · exact h
    · exact Table.set_wf _ _ _ h
    · exact ih _ _ _ (ih _ _ _ h)

theorem buildLengthsWith_wf (sel : Selector) (f : Table Count) : (buildLengthsWith sel f).wf = true :=
  visit_wf _ _ _ _ _ _ Table.empty_wf

end Sys2Proof.Machine
end

