-- ==== Sys2Proof/Laws/Encoding.lean ====
section
/-! SUPPORT. The bits of a command word and of a response word, field by field, and back. -/

namespace Sys2Proof

/-- The bits of a command word, field by field. -/
theorem getLsbD_wordOf (f : Fields) (i : Nat) :
    (wordOf f).getLsbD i =
      if i < 32 then f.imm.getLsbD i
      else if i < 48 then f.rsv.getLsbD (i - 32)
      else if i < 56 then f.sym.getLsbD (i - 48)
      else f.op.getLsbD (i - 56) := by
  have h : (wordOf f).getLsbD i = ((f.op ++ f.sym ++ f.rsv ++ f.imm : BitVec (8 + 8 + 16 + 32))).getLsbD i := rfl
  rw [h]
  simp only [BitVec.getLsbD_append]
  have h1 : i - 32 - 16 = i - 48 := by omega
  have h2 : i - 48 - 8 = i - 56 := by omega
  by_cases a : i < 32
  · simp [a]
  by_cases b : i < 48
  · simp [a, b, show i - 32 < 16 by omega]
  by_cases c : i < 56
  · simp [a, b, c, h1, show ¬ i - 32 < 16 by omega, show i - 48 < 8 by omega]
  · simp [a, b, c, h1, h2, show ¬ i - 32 < 16 by omega, show ¬ i - 48 < 8 by omega]

/-- The fields of a word made of fields are those fields. -/
theorem fieldsOf_wordOf (f : Fields) : fieldsOf (wordOf f) = f := by
  obtain ⟨op, sym, rsv, imm⟩ := f
  simp only [fieldsOf, Fields.mk.injEq]
  refine ⟨?_, ?_, ?_, ?_⟩ <;>
  · apply BitVec.eq_of_getLsbD_eq
    intro i hi
    simp only [BitVec.getLsbD_extractLsb', getLsbD_wordOf, hi, decide_true, Bool.true_and]
    split_ifs <;> first | omega | (congr 1; omega)

/-- The word made of a word's fields is that word. -/
theorem wordOf_fieldsOf (w : CmdWord) : wordOf (fieldsOf w) = w := by
  apply BitVec.eq_of_getLsbD_eq
  intro i hi
  simp only [getLsbD_wordOf, fieldsOf, BitVec.getLsbD_extractLsb']
  split_ifs with a b c
  · simp [a]
  · simp [show i - 32 < 16 by omega, show 32 + (i - 32) = i by omega]
  · simp [show i - 48 < 8 by omega, show 48 + (i - 48) = i by omega]
  · simp [show i - 56 < 8 by omega, show 56 + (i - 56) = i by omega]

end Sys2Proof

namespace Sys2Proof.Machine

/-- The bits of a response word, field by field (30_encoding R65). -/
theorem Response.getLsbD_word (r : Response) (i : Nat) :
    r.word.getLsbD i =
      if i < 256 then r.data.getLsbD i
      else if i < 264 then r.len.getLsbD (i - 256)
      else if i < 265 then (BitVec.ofBool r.valid).getLsbD (i - 264)
      else r.status.toCode.getLsbD (i - 265) := by
  have h : r.word.getLsbD i =
      ((r.status.toCode ++ BitVec.ofBool r.valid ++ r.len ++ r.data : BitVec (4 + 1 + 8 + 256))).getLsbD i := rfl
  rw [h]
  simp only [BitVec.getLsbD_append]
  by_cases a : i < 256
  · rw [if_pos a, if_pos a]
  rw [if_neg a, if_neg a]
  by_cases b : i < 264
  · rw [if_pos b, if_pos (by omega)]
  rw [if_neg b, if_neg (by omega)]
  by_cases c : i < 265
  · rw [if_pos c, if_pos (by omega), show i - 256 - 8 = i - 264 by omega]
  · rw [if_neg c, if_neg (by omega), show i - 256 - 8 - 1 = i - 265 by omega]

end Sys2Proof.Machine
end

