-- ==== Sys2Proof/Laws/PerInstr.lean ====
section
/-! SUPPORT. Families of statements about the commands as syntax, one lemma per constructor of `Instr`. -/

namespace Sys2Proof.Laws.RowWord

/-- The word of a command matches the row of the opcode table that the command belongs to, and the row is in the
table under the command's mnemonic (30_encoding R64). -/
def Statement (i : Instr) : Prop :=
  rowOf i ∈ opcodeTable ∧ (rowOf i).mnemonic = i.mnemonic ∧ encode i &&& (rowOf i).mask = (rowOf i).pattern

theorem nop : Statement .nop := by simp [Statement]; decide
theorem clr (m : BitVec 3) : Statement (.clr m) := by
  refine ⟨by simp [rowOf, opcodeTable], rfl, ?_⟩
  revert m; decide
theorem cnt (s : Symbol) : Statement (.cnt s) := by
  refine ⟨by simp [rowOf, opcodeTable], rfl, ?_⟩
  revert s; decide +kernel
theorem fset (s : Symbol) (c : Count) : Statement (.fset s c) := by
  refine ⟨by simp [rowOf, opcodeTable], rfl, ?_⟩
  refine BitVec.eq_of_getLsbD_eq fun i hi => ?_
  simp only [BitVec.getLsbD_and, encode, getLsbD_wordOf, toFields, rowOf]
  interval_cases i <;> simp
theorem fget (s : Symbol) : Statement (.fget s) := by
  refine ⟨by simp [rowOf, opcodeTable], rfl, ?_⟩
  revert s; decide +kernel
theorem build : Statement .build := by simp [Statement]; decide
theorem lset (s : Symbol) (l : Len) : Statement (.lset s l) := by
  refine ⟨by simp [rowOf, opcodeTable], rfl, ?_⟩
  refine BitVec.eq_of_getLsbD_eq fun i hi => ?_
  simp only [BitVec.getLsbD_and, encode, getLsbD_wordOf, toFields, rowOf]
  interval_cases i <;> simp
theorem lget (s : Symbol) : Statement (.lget s) := by
  refine ⟨by simp [rowOf, opcodeTable], rfl, ?_⟩
  revert s; decide +kernel
theorem assign : Statement .assign := by simp [Statement]; decide
theorem cget (s : Symbol) : Statement (.cget s) := by
  refine ⟨by simp [rowOf, opcodeTable], rfl, ?_⟩
  revert s; decide +kernel
theorem gen : Statement .gen := by simp [Statement]; decide

end Sys2Proof.Laws.RowWord
end

