-- ==== Sys2Proof/Laws/State.lean ====
section
/-! SUPPORT. One lemma per field per update of State, so that no proof unfolds a record update. -/

namespace Sys2Proof.Machine

/-! ### `State.respond` -/

@[simp] theorem State.respond_freq (s : State) (r : Response) : (s.respond r).freq = s.freq := rfl
@[simp] theorem State.respond_len (s : State) (r : Response) : (s.respond r).len = s.len := rfl
@[simp] theorem State.respond_code (s : State) (r : Response) : (s.respond r).code = s.code := rfl
@[simp] theorem State.respond_rsp (s : State) (r : Response) : (s.respond r).rsp = some r := rfl
@[simp] theorem State.respond_inputs (s : State) (r : Response) : (s.respond r).inputs = s.inputs := rfl
@[simp] theorem State.respond_delivered (s : State) (r : Response) : (s.respond r).delivered = s.delivered := rfl

/-! ### `State.withInputs` -/

@[simp] theorem State.withInputs_freq (s : State) (rest : List HostInput) : (s.withInputs rest).freq = s.freq := rfl
@[simp] theorem State.withInputs_len (s : State) (rest : List HostInput) : (s.withInputs rest).len = s.len := rfl
@[simp] theorem State.withInputs_code (s : State) (rest : List HostInput) : (s.withInputs rest).code = s.code := rfl
@[simp] theorem State.withInputs_rsp (s : State) (rest : List HostInput) : (s.withInputs rest).rsp = s.rsp := rfl
@[simp] theorem State.withInputs_inputs (s : State) (rest : List HostInput) : (s.withInputs rest).inputs = rest := rfl
@[simp] theorem State.withInputs_delivered (s : State) (rest : List HostInput) : (s.withInputs rest).delivered = s.delivered := rfl

/-! ### `State.resetEvent` -/

@[simp] theorem State.resetEvent_freq (s : State) : (s.resetEvent).freq = Table.empty := rfl
@[simp] theorem State.resetEvent_len (s : State) : (s.resetEvent).len = Table.empty := rfl
@[simp] theorem State.resetEvent_code (s : State) : (s.resetEvent).code = Table.empty := rfl
@[simp] theorem State.resetEvent_rsp (s : State) : (s.resetEvent).rsp = none := rfl
@[simp] theorem State.resetEvent_inputs (s : State) : (s.resetEvent).inputs = s.inputs := rfl
@[simp] theorem State.resetEvent_delivered (s : State) : (s.resetEvent).delivered = s.delivered := rfl

/-! ### `State.clear` -/

@[simp] theorem State.clear_freq (s : State) (m : BitVec 3) : (s.clear m).freq = if maskBit m 0 then Table.empty else s.freq := rfl
@[simp] theorem State.clear_len (s : State) (m : BitVec 3) : (s.clear m).len = if maskBit m 1 then Table.empty else s.len := rfl
@[simp] theorem State.clear_code (s : State) (m : BitVec 3) : (s.clear m).code = if maskBit m 2 then Table.empty else s.code := rfl
@[simp] theorem State.clear_rsp (s : State) (m : BitVec 3) : (s.clear m).rsp = s.rsp := rfl
@[simp] theorem State.clear_inputs (s : State) (m : BitVec 3) : (s.clear m).inputs = s.inputs := rfl
@[simp] theorem State.clear_delivered (s : State) (m : BitVec 3) : (s.clear m).delivered = s.delivered := rfl

/-! ### `State.setFreq` -/

@[simp] theorem State.setFreq_freq (s : State) (x : Symbol) (c : Count) : (s.setFreq x c).freq = s.freq.set x c := rfl
@[simp] theorem State.setFreq_len (s : State) (x : Symbol) (c : Count) : (s.setFreq x c).len = s.len := rfl
@[simp] theorem State.setFreq_code (s : State) (x : Symbol) (c : Count) : (s.setFreq x c).code = s.code := rfl
@[simp] theorem State.setFreq_rsp (s : State) (x : Symbol) (c : Count) : (s.setFreq x c).rsp = s.rsp := rfl
@[simp] theorem State.setFreq_inputs (s : State) (x : Symbol) (c : Count) : (s.setFreq x c).inputs = s.inputs := rfl
@[simp] theorem State.setFreq_delivered (s : State) (x : Symbol) (c : Count) : (s.setFreq x c).delivered = s.delivered := rfl

/-! ### `State.setLen` -/

@[simp] theorem State.setLen_freq (s : State) (x : Symbol) (l : Len) : (s.setLen x l).freq = s.freq := rfl
@[simp] theorem State.setLen_len (s : State) (x : Symbol) (l : Len) : (s.setLen x l).len = s.len.set x l := rfl
@[simp] theorem State.setLen_code (s : State) (x : Symbol) (l : Len) : (s.setLen x l).code = s.code := rfl
@[simp] theorem State.setLen_rsp (s : State) (x : Symbol) (l : Len) : (s.setLen x l).rsp = s.rsp := rfl
@[simp] theorem State.setLen_inputs (s : State) (x : Symbol) (l : Len) : (s.setLen x l).inputs = s.inputs := rfl
@[simp] theorem State.setLen_delivered (s : State) (x : Symbol) (l : Len) : (s.setLen x l).delivered = s.delivered := rfl

/-! ### `State.built` -/

@[simp] theorem State.built_freq (s : State) (lens : Table Len) : (s.built lens).freq = Table.empty := rfl
@[simp] theorem State.built_len (s : State) (lens : Table Len) : (s.built lens).len = lens := rfl
@[simp] theorem State.built_code (s : State) (lens : Table Len) : (s.built lens).code = s.code := rfl
@[simp] theorem State.built_rsp (s : State) (lens : Table Len) : (s.built lens).rsp = s.rsp := rfl
@[simp] theorem State.built_inputs (s : State) (lens : Table Len) : (s.built lens).inputs = s.inputs := rfl
@[simp] theorem State.built_delivered (s : State) (lens : Table Len) : (s.built lens).delivered = s.delivered := rfl

/-! ### `State.assigned` -/

@[simp] theorem State.assigned_freq (s : State) (codes : Table Codeword) : (s.assigned codes).freq = s.freq := rfl
@[simp] theorem State.assigned_len (s : State) (codes : Table Codeword) : (s.assigned codes).len = Table.empty := rfl
@[simp] theorem State.assigned_code (s : State) (codes : Table Codeword) : (s.assigned codes).code = codes := rfl
@[simp] theorem State.assigned_rsp (s : State) (codes : Table Codeword) : (s.assigned codes).rsp = s.rsp := rfl
@[simp] theorem State.assigned_inputs (s : State) (codes : Table Codeword) : (s.assigned codes).inputs = s.inputs := rfl
@[simp] theorem State.assigned_delivered (s : State) (codes : Table Codeword) : (s.assigned codes).delivered = s.delivered := rfl

/-! ### `State.generated` -/

@[simp] theorem State.generated_freq (s : State) (codes : Table Codeword) : (s.generated codes).freq = Table.empty := rfl
@[simp] theorem State.generated_len (s : State) (codes : Table Codeword) : (s.generated codes).len = Table.empty := rfl
@[simp] theorem State.generated_code (s : State) (codes : Table Codeword) : (s.generated codes).code = codes := rfl
@[simp] theorem State.generated_rsp (s : State) (codes : Table Codeword) : (s.generated codes).rsp = s.rsp := rfl
@[simp] theorem State.generated_inputs (s : State) (codes : Table Codeword) : (s.generated codes).inputs = s.inputs := rfl
@[simp] theorem State.generated_delivered (s : State) (codes : Table Codeword) : (s.generated codes).delivered = s.delivered := rfl

/-! ### `State.deliver` and `State.accept` -/

@[simp] theorem State.deliver_freq (s : State) : s.deliver.freq = s.freq := by
  unfold State.deliver; split <;> rfl
@[simp] theorem State.deliver_len (s : State) : s.deliver.len = s.len := by
  unfold State.deliver; split <;> rfl
@[simp] theorem State.deliver_code (s : State) : s.deliver.code = s.code := by
  unfold State.deliver; split <;> rfl
@[simp] theorem State.deliver_inputs (s : State) : s.deliver.inputs = s.inputs := by
  unfold State.deliver; split <;> rfl
@[simp] theorem State.deliver_rsp (s : State) : s.deliver.rsp = none := by
  unfold State.deliver; split <;> simp_all
@[simp] theorem State.deliver_delivered (s : State) : s.deliver.delivered = s.delivered ++ s.rsp.toList := by
  unfold State.deliver; split <;> simp_all

@[simp] theorem State.accept_freq (s : State) (rest : List HostInput) : (s.accept rest).freq = s.freq := by
  simp [State.accept]
@[simp] theorem State.accept_len (s : State) (rest : List HostInput) : (s.accept rest).len = s.len := by
  simp [State.accept]
@[simp] theorem State.accept_code (s : State) (rest : List HostInput) : (s.accept rest).code = s.code := by
  simp [State.accept]
@[simp] theorem State.accept_rsp (s : State) (rest : List HostInput) : (s.accept rest).rsp = none := by
  simp [State.accept]
@[simp] theorem State.accept_inputs (s : State) (rest : List HostInput) : (s.accept rest).inputs = rest := by
  simp [State.accept]
@[simp] theorem State.accept_delivered (s : State) (rest : List HostInput) :
    (s.accept rest).delivered = s.delivered ++ s.rsp.toList := by simp [State.accept]

/-! ### Reset -/

@[simp] theorem State.reset_freq : State.reset.freq = Table.empty := rfl
@[simp] theorem State.reset_len : State.reset.len = Table.empty := rfl
@[simp] theorem State.reset_code : State.reset.code = Table.empty := rfl
@[simp] theorem State.reset_rsp : State.reset.rsp = none := rfl
@[simp] theorem State.reset_inputs : State.reset.inputs = [] := rfl
@[simp] theorem State.reset_delivered : State.reset.delivered = [] := rfl

end Sys2Proof.Machine
end

