-- ==== Sys2Proof/Laws/Step.lean ====
section
/-! SUPPORT. What one step can do, once, and the equation of each meaning in terms of the shared operations. -/

namespace Sys2Proof.Machine

/-! ### The cases of a step -/

theorem step_idle {s : State} (h : s.inputs = []) : step s = .next s := by
  simp [step, h]

theorem step_reset {s : State} {rest : List HostInput} (h : s.inputs = .reset :: rest) :
    step s = .next (s.withInputs rest).resetEvent := by
  simp [step, h]

theorem step_take {s : State} {rest : List HostInput} (h : s.inputs = .take :: rest) :
    step s = .next (s.withInputs rest).deliver := by
  simp [step, h]

theorem step_command {s : State} {w : CmdWord} {rest : List HostInput} {i : Instr}
    (h : s.inputs = .command w :: rest) (hd : decode w = .ok i) : step s = exec i (s.accept rest) := by
  simp [step, h, hd]

theorem step_illegal {s : State} {w : CmdWord} {rest : List HostInput} {e : Illegal}
    (h : s.inputs = .command w :: rest) (hd : decode w = .error e) :
    step s = .next ((s.accept rest).respond (Response.plain .illegalCommand)) := by
  simp [step, h, hd, rejectIllegal, State.raise]

/-- Everything a step can do. -/
theorem step_cases (s : State) :
    (s.inputs = [] ∧ step s = .next s) ∨
    (∃ rest, s.inputs = .reset :: rest ∧ step s = .next (s.withInputs rest).resetEvent) ∨
    (∃ rest, s.inputs = .take :: rest ∧ step s = .next (s.withInputs rest).deliver) ∨
    (∃ w rest e, s.inputs = .command w :: rest ∧ decode w = .error e ∧
      step s = .next ((s.accept rest).respond (Response.plain .illegalCommand))) ∨
    (∃ w rest i, s.inputs = .command w :: rest ∧ decode w = .ok i ∧ step s = exec i (s.accept rest)) := by
  match h : s.inputs with
  | [] => exact .inl ⟨rfl, step_idle h⟩
  | .reset :: rest => exact .inr (.inl ⟨rest, rfl, step_reset h⟩)
  | .take :: rest => exact .inr (.inr (.inl ⟨rest, rfl, step_take h⟩))
  | .command w :: rest =>
    match hd : decode w with
    | .error e => exact .inr (.inr (.inr (.inl ⟨w, rest, e, rfl, hd, step_illegal h hd⟩)))
    | .ok i => exact .inr (.inr (.inr (.inr ⟨w, rest, i, rfl, hd, step_command h hd⟩)))

/-! ### The cases of each meaning -/

theorem execNop_eq (s : State) : execNop s = .next (s.respond (Response.plain .ok)) := rfl

theorem execClr_eq (m : BitVec 3) (s : State) :
    execClr m s = .next ((s.clear m).respond (Response.plain .ok)) := rfl

theorem execCnt_absent {x : Symbol} {s : State} (h : s.freq.get x = none) :
    execCnt x s = .next ((s.setFreq x 1).respond (Response.plain .ok)) := by
  simp [execCnt, h, State.done]

theorem execCnt_below {x : Symbol} {s : State} {c : Count} (h : s.freq.get x = some c) (hc : c < Config.freqMax) :
    execCnt x s = .next ((s.setFreq x (c + 1)).respond (Response.plain .ok)) := by
  simp [execCnt, h, hc, State.done]

theorem execCnt_full {x : Symbol} {s : State} (h : s.freq.get x = some Config.freqMax) :
    execCnt x s = .next (s.respond (Response.plain .countOverflow)) := by
  simp [execCnt, h, State.raise]

theorem execFset_eq (x : Symbol) (c : Count) (s : State) :
    execFset x c s = .next ((s.setFreq x c).respond (Response.plain .ok)) := rfl

theorem execFget_eq (x : Symbol) (s : State) :
    execFget x s = .next (s.respond (countResponse (s.freq.get x))) := rfl

theorem execBuild_empty {s : State} (h : s.freq.size = 0) :
    execBuild s = .next (s.respond (Response.plain .emptyAlphabet)) := by
  simp [execBuild, h, State.raise]

theorem execBuild_built {s : State} (h : s.freq.size ≠ 0) :
    execBuild s =
      .next ((s.built (buildLengths s.freq)).respond (numberResponse (buildLengths s.freq).size)) := by
  simp [execBuild, h]

theorem execLset_zero (x : Symbol) (s : State) :
    execLset x 0 s = .next (s.respond (Response.plain .badOperand)) := by
  simp [execLset, State.raise]

theorem execLset_set {l : Len} (x : Symbol) (s : State) (h : l ≠ 0) :
    execLset x l s = .next ((s.setLen x l).respond (Response.plain .ok)) := by
  rw [execLset, if_neg h, State.done]

theorem execLget_eq (x : Symbol) (s : State) :
    execLget x s = .next (s.respond (lenResponse (s.len.get x))) := rfl

theorem execAssign_empty {s : State} (h : s.len.size = 0) :
    execAssign s = .next (s.respond (Response.plain .emptyAlphabet)) := by
  simp [execAssign, h, State.raise]

theorem execAssign_overflow {s : State} (h : s.len.size ≠ 0) (ha : assignCodes s.len = none) :
    execAssign s = .next (s.respond (Response.plain .codeOverflow)) := by
  simp [execAssign, h, ha, State.raise]

theorem execAssign_assigned {s : State} {codes : Table Codeword} (h : s.len.size ≠ 0)
    (ha : assignCodes s.len = some codes) :
    execAssign s = .next ((s.assigned codes).respond (numberResponse codes.size)) := by
  simp [execAssign, h, ha]

theorem execCget_eq (x : Symbol) (s : State) :
    execCget x s = .next (s.respond (codeResponse (s.code.get x))) := rfl

theorem execGen_empty {s : State} (h : s.freq.size = 0) :
    execGen s = .next (s.respond (Response.plain .emptyAlphabet)) := by
  simp [execGen, h, State.raise]

theorem execGen_overflow {s : State} (h : s.freq.size ≠ 0) (ha : assignCodes (buildLengths s.freq) = none) :
    execGen s = .next (s.respond (Response.plain .codeOverflow)) := by
  simp [execGen, h, ha, State.raise]

theorem execGen_generated {s : State} {codes : Table Codeword} (h : s.freq.size ≠ 0)
    (ha : assignCodes (buildLengths s.freq) = some codes) :
    execGen s = .next ((s.generated codes).respond (numberResponse codes.size)) := by
  simp [execGen, h, ha]

end Sys2Proof.Machine
end

