-- ==== Sys2Proof/Machine/Assembler.lean ====
section
/-! DEFINITION. The assembler notation of the spec, from text to commands (30_encoding R72, R73). It is the spec's notation
for command lists, not part of the block: no step reads it. A line is a list of characters. -/

namespace Sys2Proof.Machine

/-- The quote that encloses a symbol operand (30_encoding R72). -/
def quoteChar : Char := Char.ofNat 39

/-- The quote that encloses the text of `COUNT` and `PIPE` (30_encoding R73). -/
def textQuote : Char := Char.ofNat 34

/-- Cut a line at its comment, which a semicolon starts (30_encoding R72); that a quoted semicolon starts none is
DESIGN CHOICE (log 17). -/
def dropComment : List Char → List Char
  | [] => []
  | [a] => if a = ';' then [] else [a]
  | [a, b] => if a = ';' then [] else a :: dropComment [b]
  | a :: b :: c :: rest =>
    if a = ';' then []
    else if a = quoteChar ∧ c = quoteChar then a :: b :: c :: dropComment rest
    else a :: dropComment (b :: c :: rest)

/-- A text without the blanks at its two ends; that blanks around operands are skipped, and that a blank is a space, is
DESIGN CHOICE (log 17). -/
def trimBlanks (cs : List Char) : List Char :=
  ((cs.dropWhile (· = ' ')).reverse.dropWhile (· = ' ')).reverse

/-- The value of a decimal digit. -/
def decDigit (c : Char) : Option Nat := if '0' ≤ c ∧ c ≤ '9' then some (c.toNat - 48) else none

/-- The value of a hexadecimal digit; that both cases are read is DESIGN CHOICE (log 17). -/
def hexDigit (c : Char) : Option Nat :=
  if '0' ≤ c ∧ c ≤ '9' then some (c.toNat - 48)
  else if 'A' ≤ c ∧ c ≤ 'F' then some (c.toNat - 55)
  else if 'a' ≤ c ∧ c ≤ 'f' then some (c.toNat - 87)
  else none

/-- The number that a list of digits writes in a base, none where one is no digit. -/
def readDigits (base : Nat) (digit : Char → Option Nat) : Nat → List Char → Option Nat
  | n, [] => some n
  | n, c :: cs =>
    match digit c with
    | none => none
    | some d => readDigits base digit (base * n + d) cs

/-- A number: hexadecimal with `0x`, else decimal (30_encoding R72). -/
def readNumber : List Char → Option Nat
  | [] => none
  | '0' :: 'x' :: c :: cs => readDigits 16 hexDigit 0 (c :: cs)
  | c :: cs => readDigits 10 decDigit 0 (c :: cs)

/-- An operand: a character in single quotes, which stands for its code, or a number (30_encoding R72).
R72 gives the quoted form to a symbol operand only and says nothing of it for `m`, `c` and `l`; that it is read for
every operand is DESIGN CHOICE (log 17). -/
def readOperand (cs : List Char) : Option Nat :=
  match cs with
  | [a, b, c] => if a = quoteChar ∧ c = quoteChar then some b.toNat else readNumber [a, b, c]
  | _ => readNumber cs

/-- The operands of a line, separated by commas (30_encoding R72); that a quoted comma separates none is DESIGN CHOICE
(log 17). -/
def splitOperands : List Char → List (List Char)
  | [] => [[]]
  | [a] => if a = ',' then [[], []] else [[a]]
  | [a, b] =>
    let r := splitOperands [b]
    if a = ',' then [] :: r else (a :: r.headD []) :: r.tail
  | a :: b :: c :: rest =>
    if a = quoteChar ∧ c = quoteChar then
      let r := splitOperands rest
      (a :: b :: c :: r.headD []) :: r.tail
    else
      let r := splitOperands (b :: c :: rest)
      if a = ',' then [] :: r else (a :: r.headD []) :: r.tail

/-- A number that fits the field; that a line with one that does not fit is refused is DESIGN CHOICE (log 17). -/
def fit (w n : Nat) : Option (BitVec w) := if n < 2 ^ w then some (BitVec.ofNat w n) else none

/-- The command of a mnemonic with its operands (30_encoding R63, R64, R72). -/
def commandOf (mnemonic : List Char) (operands : List Nat) : Option Instr :=
  match String.ofList mnemonic, operands with
  | "NOP", [] => some .nop
  | "CLR", [m] => (fit 3 m).map .clr
  | "CNT", [s] => (fit 8 s).map .cnt
  | "FSET", [s, c] => (fit 8 s).bind fun x => (fit 32 c).map (.fset x)
  | "FGET", [s] => (fit 8 s).map .fget
  | "BUILD", [] => some .build
  | "LSET", [s, l] => (fit 8 s).bind fun x => (fit 8 l).map (.lset x)
  | "LGET", [s] => (fit 8 s).map .lget
  | "ASSIGN", [] => some .assign
  | "CGET", [s] => (fit 8 s).map .cget
  | "GEN", [] => some .gen
  | _, _ => none

/-- The text of `COUNT "…"` and `PIPE "…"`: the symbols of the characters between the quotes, with nothing but a comment
after them (30_encoding R72, R73). -/
def readText (cs : List Char) : Option (List Symbol) :=
  match cs with
  | [] => none
  | q :: rest =>
    let body := rest.takeWhile fun c => c ≠ textQuote
    match rest.drop body.length with
    | [] => none
    | _ :: tail =>
      if q = textQuote ∧ trimBlanks (dropComment tail) = [] then body.mapM fun c => fit 8 c.toNat else none

/-- A pseudo-command (30_encoding R73). -/
def pseudoOf (mnemonic rest : List Char) : Option Pseudo :=
  match String.ofList mnemonic, rest with
  | "FCLR", [] => some .fclr
  | "LCLR", [] => some .lclr
  | "CCLR", [] => some .cclr
  | "RESET", [] => some .reset
  | "COUNT", _ :: _ => (readText rest).map .count
  | "PIPE", _ :: _ => (readText rest).map .pipe
  | _, _ => none

/-- One line: a command or a pseudo-command, or nothing but a comment (30_encoding R72, R73). -/
def assembleLine (line : List Char) : Option (List Instr) :=
  let mnemonic := (trimBlanks line).takeWhile fun c => c ≠ ' ' ∧ c ≠ ';'
  let rest := trimBlanks ((trimBlanks line).drop mnemonic.length)
  match pseudoOf mnemonic rest with
  | some p => some p.expand
  | none =>
    let operands := trimBlanks (dropComment rest)
    match mnemonic, operands with
    | [], _ => some []
    | _, [] =>
      match pseudoOf mnemonic [] with
      | some p => some p.expand
      | none => (commandOf mnemonic []).map fun i => [i]
    | _, cs =>
      (((splitOperands cs).mapM fun o => readOperand (trimBlanks o)).bind fun ns => commandOf mnemonic ns).map
        fun i => [i]

end Sys2Proof.Machine
end

