-- ==== Sys2Proof/Tests/Slice0.lean ====
section
/-! SUPPORT. Tests against the spec's vectors (95_test_vectors), each about one step on a small state, the smoke
test of WellFormed, and for every statement with hypotheses a concrete witness that meets them. -/

namespace Sys2Proof.Tests

open Sys2Proof Sys2Proof.Machine

/-! ### Helpers -/

/-- The state a step answers, none where it stops. -/
def after (o : Host.Outcome State Fault Refusal) : Option State :=
  match o with
  | .next t => some t
  | .fault _ => none
  | .refused _ => none

/-- A state from the cells of its three tables. -/
def st (f : List (Symbol × Count)) (l : List (Symbol × Len)) (c : List (Symbol × Codeword)) : State :=
  { State.reset with freq := ⟨f⟩, len := ⟨l⟩, code := ⟨c⟩ }

/-- The same state with a response offered. -/
def answered (s : State) (r : Response) : State := { s with rsp := some r }

/-- The codes of the document's example (S1). -/
def codesOfS1 : List (Symbol × Codeword) := [(0x61, ⟨1, 0b0⟩), (0x62, ⟨2, 0b10⟩), (0x63, ⟨2, 0b11⟩)]

/-- Whether the decoder refuses the word. -/
def refusesWord (w : CmdWord) : Bool :=
  match decode w with
  | .ok _ => false
  | .error _ => true

/-! ### Smoke test of WellFormed: an ill-formed word for each check (95 Part 2, I1 to I14) -/

theorem test_wf_rsv : Fields.rsvOk ⟨0x20, 0, 1, 0⟩ = false := by decide
theorem test_wf_op : Fields.opOk ⟨0x31, 0, 0, 0⟩ = false := by decide
theorem test_wf_sym_nop : Fields.symOk ⟨0x00, 1, 0, 0⟩ = false := by decide
theorem test_wf_sym_clr : Fields.symOk ⟨0x01, 0x61, 0, 1⟩ = false := by decide
theorem test_wf_sym_assign : Fields.symOk ⟨0x30, 0x61, 0, 0⟩ = false := by decide
theorem test_wf_imm_clr : Fields.immOk ⟨0x01, 0, 0, 8⟩ = false := by decide
theorem test_wf_imm_lset : Fields.immOk ⟨0x21, 0x61, 0, 0x100⟩ = false := by decide
theorem test_wf_imm_cnt : Fields.immOk ⟨0x10, 0x61, 0, 1⟩ = false := by decide
theorem test_wf_words :
    [0x3100000000000000, 0x0200000000000000, 0x4100000000000000, 0xFFFFFFFFFFFFFFFF, 0x1061000000000001,
     0x2000000100000000, 0x1161800000000001, 0x2161000000000100, 0x0100000000000008, 0x0001000000000000,
     0x0161000000000001, 0x3061000000000000, 0x4000000000000001, 0x3262000000000001].all
      (fun w => refusesWord w && !(fieldsOf w).wellFormed && !legalWord w) = true := by decide

/-! ### Decoding, every constructor, words written out from 30_encoding R62 to R64 -/

theorem test_decode_nop : decode 0x0000000000000000 = .ok .nop := by decide
theorem test_decode_clr : decode 0x0100000000000005 = .ok (.clr 5) := by decide
theorem test_decode_cnt : decode 0x1061000000000000 = .ok (.cnt 0x61) := by decide
theorem test_decode_fset : decode 0x11610000FFFFFFFE = .ok (.fset 0x61 0xFFFFFFFE) := by decide
theorem test_decode_fget : decode 0x127A000000000000 = .ok (.fget 0x7A) := by decide
theorem test_decode_build : decode 0x2000000000000000 = .ok .build := by decide
theorem test_decode_lset : decode 0x2146000000000002 = .ok (.lset 0x46 2) := by decide
theorem test_decode_lget : decode 0x2262000000000000 = .ok (.lget 0x62) := by decide
theorem test_decode_assign : decode 0x3000000000000000 = .ok .assign := by decide
theorem test_decode_cget : decode 0x3262000000000000 = .ok (.cget 0x62) := by decide
theorem test_decode_gen : decode 0x4000000000000000 = .ok .gen := by decide
theorem test_tableWord : decodeTableWord 64 0x1061000000000000 = some (.cnt 0x61) := by decide
theorem test_tableWord_illegal : decodeTableWord 64 0x3100000000000000 = none := by decide

/-- The order of the illegality reasons is the order of R70's checks; the answer is the same for all (I8). -/
theorem test_decode_reason : decode 0x2161000000000100 = .error .immediateNotZero := by decide

/-- Examples of R72 and R73. -/
theorem test_encode_examples :
    encode (.cnt 0x61) = 0x1061000000000000 ∧ encode (.fset 0x62 1) = 0x1162000000000001 ∧
    encode (.lset 0x61 3) = 0x2161000000000003 ∧ encode (.clr 7) = 0x0100000000000007 := by decide
theorem test_asm : (Instr.lset 0x61 3).asm = "LSET 97, 3" := by decide
theorem test_pipe :
    (Pseudo.pipe [0x61, 0x62]).expand = [.clr 1, .cnt 0x61, .cnt 0x62, .gen] := by decide

/-- The examples of R72 from their text, and a pseudo-command of R73. -/
theorem test_assemble :
    assembleLine "CNT 'a'".toList = some [.cnt 0x61] ∧ assembleLine "FSET 0x62, 1".toList = some [.fset 0x62 1] ∧
    assembleLine "LSET 'a', 3 ; three bits".toList = some [.lset 0x61 3] ∧
    assembleLine "COUNT 'a'".toList = none ∧ assembleLine "RESET".toList = some [.clr 7] := by decide

/-! ### Response words (95 Part 2, W2, W5, W11) -/

theorem test_word_cget :
    (Response.value 2 2).word = 0x01020000000000000000000000000000000000000000000000000000000000000002 := by decide +kernel
theorem test_word_count :
    (Response.value 0 0xFFFFFFFF).word =
      0x010000000000000000000000000000000000000000000000000000000000FFFFFFFF := by decide +kernel
theorem test_word_illegal :
    (Response.plain .illegalCommand).word =
      0x0A000000000000000000000000000000000000000000000000000000000000000000 := by decide +kernel

/-! ### The system commands (95 Part 7) -/

/-- Y6. -/
theorem test_clr_five :
    after (exec (.clr 5) (st [(0x61, 2)] [(0x62, 3)] [(0x63, ⟨1, 0⟩)])) =
      some (answered (st [] [(0x62, 3)] []) (Response.plain .ok)) := by decide
/-- Y1. -/
theorem test_nop :
    after (exec .nop (st [(0x61, 2)] [(0x62, 3)] [])) =
      some (answered (st [(0x61, 2)] [(0x62, 3)] []) (Response.plain .ok)) := by decide

/-! ### The symbol_frequency_counter (95 Part 3) -/

/-- K4. -/
theorem test_cnt_last :
    after (exec (.cnt 0x61) (st [(0x61, 4294967294)] [] [])) =
      some (answered (st [(0x61, 4294967295)] [] []) (Response.plain .ok)) := by decide
/-- K5. -/
theorem test_cnt_overflow :
    after (exec (.cnt 0x61) (st [(0x61, 4294967295)] [] [])) =
      some (answered (st [(0x61, 4294967295)] [] []) (Response.plain .countOverflow)) := by decide
/-- K13, and the order of the cells. -/
theorem test_fset_over :
    after (exec (.fset 0x61 7) (st [(0x60, 1), (0x61, 2), (0x62, 3)] [] [])) =
      some (answered (st [(0x60, 1), (0x61, 7), (0x62, 3)] [] []) (Response.plain .ok)) := by decide
/-- K15: `some 0` has `valid = 1`. -/
theorem test_fget_zero :
    after (exec (.fget 0x63) (st [(0x61, 2), (0x63, 0)] [] [])) =
      some (answered (st [(0x61, 2), (0x63, 0)] [] []) (Response.value 0 0)) := by decide

/-! ### The huffman_tree_builder (95 Part 4) -/

/-- B1. -/
theorem test_build_s1 :
    after (exec .build (st [(0x61, 2), (0x62, 1), (0x63, 1)] [(0x71, 7)] [(0x63, ⟨1, 0⟩)])) =
      some (answered (st [] [(0x61, 1), (0x62, 2), (0x63, 2)] [(0x63, ⟨1, 0⟩)]) (Response.value 0 3)) := by
  decide
/-- B7, the tie-break D16 on "abracadabra". -/
theorem test_build_tie :
    buildLengths ⟨[(0x61, 5), (0x62, 2), (0x63, 1), (0x64, 1), (0x72, 2)]⟩ =
      ⟨[(0x61, 1), (0x62, 3), (0x63, 3), (0x64, 3), (0x72, 3)]⟩ := by decide
/-- B14: the sum of two full counts needs 33 bits and is exact in 40. -/
theorem test_build_wide_sum :
    (buildTree selectLowest ⟨[(0x61, 4294967295), (0x62, 4294967295)]⟩).1.nodes.getLast? =
      some (.inner 8589934590 0 1) := by decide
/-- T3. -/
theorem test_lset_zero :
    after (exec (.lset 0x61 0) (st [] [(0x61, 3)] [])) =
      some (answered (st [] [(0x61, 3)] []) (Response.plain .badOperand)) := by decide
/-- T4. -/
theorem test_lset_max :
    after (exec (.lset 0x78 255) (st [] [] [])) =
      some (answered (st [] [(0x78, 255)] []) (Response.plain .ok)) := by decide
/-- T5. -/
theorem test_lget :
    after (exec (.lget 0x62) (st [] [(0x61, 1), (0x62, 2)] [])) =
      some (answered (st [] [(0x61, 1), (0x62, 2)] []) (Response.value 2 0)) := by decide

/-! ### The canonical_huffman_assigner (95 Part 5) -/

/-- A13: the length is the primary key, a jump of two shifts twice. -/
theorem test_assign_jump :
    after (exec .assign (st [(0x70, 1)] [(0x61, 3), (0x62, 1), (0x63, 3)] [(0x7A, ⟨1, 0⟩)])) =
      some (answered (st [(0x70, 1)] [] [(0x61, ⟨3, 0b100⟩), (0x62, ⟨1, 0b0⟩), (0x63, ⟨3, 0b101⟩)])
        (Response.value 0 3)) := by decide
/-- A14: the failure comes late in the order; nothing changes. -/
theorem test_assign_overflow :
    after (exec .assign (st [] [(0x61, 1), (0x62, 2), (0x63, 3), (0x64, 3), (0x65, 3)] [(0x7A, ⟨1, 0⟩)])) =
      some (answered (st [] [(0x61, 1), (0x62, 2), (0x63, 3), (0x64, 3), (0x65, 3)] [(0x7A, ⟨1, 0⟩)])
        (Response.plain .codeOverflow)) := by decide
/-- A12: 254 shifts. -/
theorem test_assign_longest :
    assignCodes ⟨[(0x61, 1), (0x62, 255)]⟩ = some ⟨[(0x61, ⟨1, 0⟩), (0x62, ⟨255, BitVec.ofNat 255 (2 ^ 254)⟩)]⟩ := by
  decide +kernel
/-- G2. -/
theorem test_cget :
    after (exec (.cget 0x62) (st [] [] codesOfS1)) =
      some (answered (st [] [] codesOfS1) (Response.value 2 2)) := by decide

/-! ### The huffman_code_table_gen (95 Part 6) -/

/-- N1, with an old `LEN` that is lost (R209). -/
theorem test_gen_s1 :
    after (exec .gen (st [(0x61, 2), (0x62, 1), (0x63, 1)] [(0x71, 7)] [])) =
      some (answered (st [] [] codesOfS1) (Response.value 0 3)) := by decide
/-- N3: an empty `FREQ` fails and keeps `LEN` and `CODE`. -/
theorem test_gen_empty :
    after (exec .gen (st [] [(0x61, 1)] [(0x63, ⟨1, 0⟩)])) =
      some (answered (st [] [(0x61, 1)] [(0x63, ⟨1, 0⟩)]) (Response.plain .emptyAlphabet)) := by decide

/-! ### Steps -/

/-- X8: the first command after reset. -/
theorem test_step_first :
    after (step (State.reset.withFetchWord 64 0x1261000000000000)) =
      some (answered State.reset (Response.plain .ok)) := by decide
/-- I1: an illegal word, and the response before it is delivered when it is accepted. -/
theorem test_step_illegal :
    after (step ((answered State.reset (Response.value 0 3)).withFetchWord 64 0x3100000000000000)) =
      some { answered State.reset (Response.plain .illegalCommand) with delivered := [Response.value 0 3] } := by
  decide
/-- X7, R202: the response in flight at reset is lost. -/
theorem test_step_reset :
    after (step { answered (st [(0x61, 2)] [(0x62, 3)] []) (Response.plain .ok) with inputs := [.reset] }) =
      some State.reset := by decide
theorem test_step_take :
    after (step { answered State.reset (Response.plain .ok) with inputs := [.take] }) =
      some { State.reset with delivered := [Response.plain .ok] } := by decide

/-! ### Witnesses: for each statement with hypotheses, concrete data that meet all of them together -/

/-- The example state of the witnesses: every table holds something. -/
def sample : State := st [(0x61, 2), (0x62, 1), (0x63, 1)] [(0x61, 1), (0x62, 2), (0x63, 2)] [(0x61, ⟨1, 0⟩)]

theorem absent_of_size {α : Type} {t : Table α} (h : t.size = 0) : AllAbsent t := (Table.size_eq_zero t).mp h

theorem not_absent_of_get {α : Type} {t : Table α} {x : Symbol} {v : α} (h : t.get x = some v) : ¬ AllAbsent t :=
  fun ha => by simp [ha x] at h

/-- DecodeAndEncodeAgree (its second part), and with it a legal word. -/
theorem witness_DecodeAndEncodeAgree : decode 0x2146000000000002 = .ok (.lset 0x46 2) := by decide

/-- DecodeFollowsTheCaseTable, a word for each clause: rsv not zero, an opcode not assigned, and each opcode with its
fields right and wrong. -/
theorem witness_DecodeFollowsTheCaseTable :
    ((0x2000000100000000 : CmdWord).extractLsb' 32 16 ≠ 0 ∧ (0x3100000000000000 : CmdWord).extractLsb' 56 8 = 0x31) ∧
    [0x0000000000000000, 0x0100000000000007, 0x10FF000000000000, 0x1161000000000000, 0x1200000000000000,
     0x2000000000000000, 0x21610000000000FF, 0x22FF000000000000, 0x3000000000000000, 0x3200000000000000,
     0x4000000000000000].all (fun w => !refusesWord w) = true ∧
    [0x0000000000000001, 0x0001000000000000, 0x0100000000000008, 0x0101000000000000, 0x1000000000000001,
     0x1200000080000000, 0x2000000000000001, 0x2001000000000000, 0x2100000000000100, 0x2200000000000001,
     0x3000000000000001, 0x3001000000000000, 0x3200000000000001, 0x4000000000000001, 0x4001000000000000].all
      (fun w => refusesWord w) = true := by decide

/-- MatchingRowGivesTheCommand: the last row matches its word. -/
theorem witness_MatchingRowGivesTheCommand :
    (⟨"GEN", 0x4000000000000000, 0xFFFFFFFFFFFFFFFF⟩ : OpcodeRow) ∈ opcodeTable ∧
    (0x4000000000000000 : CmdWord) &&& 0xFFFFFFFFFFFFFFFF = 0x4000000000000000 := by decide

/-- StepExecutesTheDecodedCommand, EachFailureHasItsCause (its second part). -/
theorem witness_StepExecutesTheDecodedCommand :
    (sample.withFetchWord 64 0x4000000000000000).inputs = .command 0x4000000000000000 :: [] ∧
    decode 0x4000000000000000 = .ok .gen := by decide

/-- StepAnswersIllegalWord, EachFailureHasItsCause (its second part). -/
theorem witness_StepAnswersIllegalWord :
    (sample.withFetchWord 64 0x3100000000000000).inputs = .command 0x3100000000000000 :: [] ∧
    IsIllegal 0x3100000000000000 := ⟨by decide, .opcodeUnassigned, by decide⟩

/-- ResetEventEmptiesTheTables, while a response is in flight. -/
theorem witness_ResetEventEmptiesTheTables :
    ({ answered sample (Response.plain .ok) with inputs := [.reset] } : State).inputs = .reset :: [] := rfl

/-- ResponseStaysUntilTaken, its three clauses. -/
theorem witness_ResponseStaysUntilTaken :
    (({ answered sample (Response.value 0 3) with inputs := [.take] } : State).inputs = .take :: [] ∧
      (answered sample (Response.value 0 3)).rsp = some (Response.value 0 3)) ∧
    (({ sample with inputs := [.take] } : State).inputs = .take :: [] ∧ sample.rsp = none) ∧
    sample.inputs = [] := by decide

/-- OneResponsePerCommandInOrder, with an illegal word among the commands. -/
theorem witness_OneResponsePerCommandInOrder :
    ({ sample with inputs := [.command 0x2000000000000000, .command 0x3100000000000000] } : State).inputs =
      [0x2000000000000000, 0x3100000000000000].map HostInput.command := rfl

/-- EveryStepKeepsTheInvariants, EqualMapsAreEqualTables, LgetAnswersTheEntry (its last clause): a state with the invariants in which no table is empty and
a step of it. -/
theorem witness_Inv : State.Inv { sample with inputs := [.command 0] } ∧
    ∃ t, step { sample with inputs := [.command 0] } = .next t := by
  refine ⟨⟨by decide, by decide, by decide, ?_, ?_, .inr ⟨⟨[(0x61, 1)]⟩, ?_, ?_, ?_, by decide⟩, ?_⟩, _, rfl⟩
  · intro x l h
    simp only [sample, st, Table.get, lookupCell] at h
    split_ifs at h <;> cases h <;> decide
  · intro x w h
    simp only [sample, st, Table.get, lookupCell] at h
    split_ifs at h
    cases h
    exact ⟨by decide, by decide⟩
  · exact not_absent_of_get (x := 0x61) (v := 1) (by decide)
  · intro x l h
    simp only [Table.get, lookupCell] at h
    split_ifs at h
    cases h
    decide
  · have h : kraftSum ⟨[(0x61, 1)]⟩ = 2 ^ 254 := by decide +kernel
    rw [Kraft, h]
    exact Nat.pow_le_pow_right (by decide) (by decide)
  · intro r hr
    simp [sample, st, State.responses, State.reset] at hr

/-- EveryLegalTripleIsReachable: a length table in range and the code table of another. -/
theorem witness_EveryLegalTripleIsReachable :
    (∀ x v, (⟨[(0x71, 7)]⟩ : Table Len).get x = some v → v ≠ 0) ∧
    ∃ b : Table Len, ¬ AllAbsent b ∧ (∀ x v, b.get x = some v → v ≠ 0) ∧ Kraft b ∧
      assignCodes b = some ⟨[(0x61, ⟨1, 0⟩)]⟩ := by
  have hr : ∀ (k : Symbol) (m : Len), m ≠ 0 → ∀ x v, (⟨[(k, m)]⟩ : Table Len).get x = some v → v ≠ 0 := by
    intro k m hm x v h
    simp only [Table.get, lookupCell] at h
    split_ifs at h
    cases h
    exact hm
  refine ⟨hr _ _ (by decide), ⟨[(0x61, 1)]⟩, not_absent_of_get (x := 0x61) (v := 1) (by decide),
    hr _ _ (by decide), ?_, by decide⟩
  have h : kraftSum ⟨[(0x61, 1)]⟩ = 2 ^ 254 := by decide +kernel
  rw [Kraft, h]
  exact Nat.pow_le_pow_right (by decide) (by decide)

/-- ClrEmptiesTheSelectedTables: a mask with set and clear bits. -/
theorem witness_ClrEmptiesTheSelectedTables :
    (5#3).getLsbD 0 = true ∧ (5#3).getLsbD 1 = false ∧ (5#3).getLsbD 2 = true ∧
    (2#3).getLsbD 0 = false ∧ (2#3).getLsbD 1 = true ∧ (2#3).getLsbD 2 = false := by decide

/-- CntCountsOneOccurrence, its clauses: absent, zero, the last count that fits, the full count, two symbols. -/
theorem witness_CntCountsOneOccurrence :
    (st [] [] []).freq.get 0x61 = none ∧
    ((st [(0x61, 0)] [] []).freq.get 0x61 = some 0 ∧ (0 : Count).toNat < 2 ^ 32 - 1) ∧
    ((st [(0x61, 4294967294)] [] []).freq.get 0x61 = some 4294967294 ∧ (4294967294 : Count).toNat < 2 ^ 32 - 1) ∧
    ((st [(0x61, 4294967295)] [] []).freq.get 0x61 = some 4294967295 ∧ (4294967295 : Count).toNat = 2 ^ 32 - 1) ∧
    (0x62 : Symbol) ≠ 0x61 := by decide

/-- FgetAnswersTheEntry, LgetAnswersTheEntry, CgetAnswersTheEntry: an absent and a present entry each. -/
theorem witness_GetAnswersTheEntry :
    (sample.freq.get 0x7A = none ∧ sample.freq.get 0x61 = some 2) ∧
    (sample.len.get 0x7A = none ∧ sample.len.get 0x62 = some 2) ∧
    (sample.code.get 0x7A = none ∧ sample.code.get 0x61 = some ⟨1, 0⟩) := by decide

theorem witness_Codeword_wf : Codeword.wf ⟨255, 0⟩ ∧ Codeword.wf ⟨1, 1⟩ := by
  refine ⟨⟨by decide, ?_⟩, by decide, by decide⟩
  exact Nat.two_pow_pos _

/-- EmptyFreqFailsBuildAndGen, EmptyLenFailsAssign. -/
theorem witness_Empty : AllAbsent (st [] [(0x61, 1)] []).freq ∧ AllAbsent (st [(0x61, 1)] [] []).len :=
  ⟨absent_of_size (by decide), absent_of_size (by decide)⟩

/-- BuildReplacesLenAndConsumesFreq, GenReplacesCodeAndConsumesFreqAndLen: one entry of count zero is enough. -/
theorem witness_NonEmptyFreq : ¬ AllAbsent (st [(0x61, 0)] [] []).freq ∧ ¬ AllAbsent sample.freq :=
  ⟨not_absent_of_get (x := 0x61) (v := 0) (by decide), not_absent_of_get (x := 0x61) (v := 2) (by decide)⟩

/-- LsetLoadsOneEntry: the length 0, and the two ends of the legal range. -/
theorem witness_LsetLoadsOneEntry : (0 : Len) = 0 ∧ (1 : Len) ≠ 0 ∧ (255 : Len) ≠ 0 := by decide

/-- LeavesAreTheEntriesInSymbolOrder: two leaves. -/
theorem witness_LeavesAreTheEntriesInSymbolOrder :
    sample.freq.get 0x61 = some 2 ∧ (leaves sample.freq).nodes[0]? = some (.leaf 0x61 2) ∧
    (leaves sample.freq).nodes[1]? = some (.leaf 0x62 1) := by decide

/-- SelectTakesTheLeastPair: pending nodes with a tie. -/
theorem witness_SelectTakesTheLeastPair :
    ([0, 1, 2] : List NodeIdx) ≠ [] ∧ selectLowest (leaves sample.freq) [0, 1, 2] = 1 := by decide

/-- MergeLoopLeavesOneRoot, FrequencySumsAreExact, BuiltLengthsMeetKraftWithEquality, BuiltLengthsAreInRange,
WeightedLengthIsTheInnerSum, BuiltLengthsNeverOverflow: a legal choice, tables of one and of three symbols, their trees
and lengths. -/
theorem witness_LegalSelector :
    LegalSelector selectLowest ∧ (⟨[(0x61, 4)]⟩ : Table Count).size = 1 ∧ sample.freq.size = 3 ∧
    buildTree selectLowest sample.freq =
      (⟨[.leaf 0x61 2, .leaf 0x62 1, .leaf 0x63 1, .inner 2 1 2, .inner 4 0 3], by decide⟩, [4]) ∧
    (buildLengthsWith selectLowest ⟨[(0x61, 4)]⟩).get 0x61 = some 1 ∧
    (buildLengthsWith selectLowest sample.freq).get 0x63 = some 2 :=
  ⟨selectLowest_legal, by decide, by decide, by decide, by decide, by decide⟩

/-- BuiltLengthsAreOptimal, GeneratedTableIsCompleteAndOptimal: lengths of at least 1 that satisfy the Kraft
inequality. -/
theorem witness_BuiltLengthsAreOptimal :
    LegalSelector selectLowest ∧ (∀ x ∈ sample.freq.dom, 1 ≤ (fun _ => 2 : Symbol → Nat) x) ∧
    (sample.freq.dom.map fun x => (1 / 2 : ℚ) ^ (fun _ => 2 : Symbol → Nat) x).sum ≤ 1 := by
  refine ⟨selectLowest_legal, by simp, ?_⟩
  have h : sample.freq.dom = [0x61, 0x62, 0x63] := by decide
  rw [h]
  norm_num

/-- AssignSucceedsExactlyOnKraft: lengths that satisfy the inequality with equality, and lengths just above it (A1,
A6). -/
theorem witness_AssignSucceedsExactlyOnKraft :
    (¬ AllAbsent sample.len ∧ Kraft sample.len) ∧
    (¬ AllAbsent (st [] [(0x61, 1), (0x62, 1), (0x63, 2)] []).len ∧
      ¬ Kraft (st [] [(0x61, 1), (0x62, 1), (0x63, 2)] []).len) := by
  refine ⟨⟨not_absent_of_get (x := 0x61) (v := 1) (by decide), ?_⟩,
    not_absent_of_get (x := 0x61) (v := 1) (by decide), ?_⟩ <;> unfold Kraft <;> decide +kernel

/-- AssignWritesOneCodewordPerLength, CodesHaveTheClosedForm, EqualLengthCodesAreConsecutive, AssignedCodesArePrefixFree,
FirstCodeZerosLastCodeOnes: a table that is assigned, its records, its Kraft sum exactly 1, its two codes of equal
length. -/
theorem witness_Assigned :
    assignCodes sample.len = some ⟨codesOfS1⟩ ∧
    sortedRecords sample.len = [(1, 0x61), (2, 0x62), (2, 0x63)] ∧
    (⟨codesOfS1⟩ : Table Codeword).get 0x62 = some ⟨2, 2⟩ ∧ (⟨codesOfS1⟩ : Table Codeword).get 0x63 = some ⟨2, 3⟩ ∧
    (0x62 : Symbol) < 0x63 := by decide

theorem witness_Assigned_kraft : kraftSum sample.len = 2 ^ Config.maxLen := by decide +kernel

theorem witness_Assigned_adjacent : ∀ z u, (0x62 : Symbol) < z → z < 0x63 →
    (⟨codesOfS1⟩ : Table Codeword).get z = some u → u.len ≠ 2 := by
  intro z u h1 h2 _
  bv_omega

/-- FirstCodeZerosLastCodeOnes (its last clause), DegenerateAlphabetsThroughThePipeline: a table of one symbol. -/
theorem witness_SingleSymbol :
    (∀ y, (⟨[(0x61, 3)]⟩ : Table Len).get y = if y = 0x61 then some 3 else none) ∧
    ∀ y, (st [(0x61, 4)] [] []).freq.get y = if y = 0x61 then some 4 else none := by
  refine ⟨fun y => ?_, fun y => ?_⟩ <;>
  · simp only [st, Table.get, lookupCell]
    by_cases h : y = 0x61
    · rw [if_pos h, if_pos h.symm]
    · rw [if_neg h, if_neg (fun e => h e.symm)]

/-- RecordsAreSortedByLengthThenSymbol (its last clause). -/
theorem witness_RecordsAreSorted : ∀ x l, (⟨[(0x61, 3)]⟩ : Table Len).get x = some l → l ≠ 0 := by
  intro x l h
  simp only [Table.get, lookupCell] at h
  split_ifs at h
  cases h
  decide

/-- CodeRegisterNeverOverflows: the widest padding, from length 1 to 255 with code 1, and the test passed after it. -/
theorem witness_CodeRegisterNeverOverflows :
    (1 : Len) ≤ 255 ∧ (1 : CodeReg).toNat ≤ 2 ^ (1 : Len).toNat ∧
    ¬ codeLimit (padTo 255 Config.maxLen ⟨1, 1⟩).length ≤ (padTo 255 Config.maxLen ⟨1, 1⟩).code := by
  refine ⟨by decide, by decide, ?_⟩
  decide +kernel

/-- CountingIgnoresTheOrder. -/
theorem witness_CountingIgnoresTheOrder : ([0x61, 0x62] : List Symbol).Perm [0x62, 0x61] := by decide

/-- CountingATextCountsOccurrences (its last clause), PipelineOnATextLeavesItsCodes: the text "aabc". -/
theorem witness_PipelineOnATextLeavesItsCodes :
    ([0x61, 0x61, 0x62, 0x63] : List Symbol) ≠ [] ∧
    (∀ y, ([0x61, 0x61, 0x62, 0x63] : List Symbol).count y ≤ 2 ^ 32 - 1) ∧
    ∀ y, sample.freq.get y =
      if ([0x61, 0x61, 0x62, 0x63] : List Symbol).count y = 0 then none
      else some (BitVec.ofNat 32 (([0x61, 0x61, 0x62, 0x63] : List Symbol).count y)) := by
  refine ⟨by decide, fun y => ?_, by decide +kernel⟩
  exact (List.count_le_length).trans (by decide)

/-- FailingCommandWritesNothing, FailureIsLikeNop, EachFailureHasItsCause: a command that fails. -/
theorem witness_FailingCommand :
    exec (.lset 0x61 0) sample = .next (answered sample (Response.plain .badOperand)) ∧
    (answered sample (Response.plain .badOperand)).status ≠ some .ok := ⟨rfl, by decide⟩

/-- ReadsAndLoadsAreIdempotent: one command of each kind runs. -/
theorem witness_ReadsAndLoadsAreIdempotent :
    exec (.fget 0x61) sample = .next (answered sample (Response.value 0 2)) ∧
    (after (exec (.fset 0x61 9) sample)).isSome ∧ (after (exec (.lset 0x61 9) sample)).isSome ∧
    (after (exec (.clr 3) sample)).isSome ∧ (after (exec (.lget 0x61) sample)).isSome ∧
    (after (exec (.cget 0x61) sample)).isSome := ⟨rfl, by decide⟩

/-- ImmediateRepetitionFails, GeneratedTableIsCompleteAndOptimal, BuiltLengthsNeverOverflow,
ResultsDependOnTheInputMapAlone: `BUILD`, `ASSIGN` and `GEN` succeed on the sample state. -/
theorem witness_Succeeds :
    (after (exec .build sample)).map State.status = some (some .ok) ∧
    (after (exec .assign sample)).map State.status = some (some .ok) ∧
    (after (exec .gen sample)).map State.status = some (some .ok) := by decide

/-- CommandsKeepTheirReadAndWriteSets, ResultsDependOnTheInputMapAlone: two states that agree on `FREQ` and `LEN` and
differ in `CODE`, and a command that writes neither `FREQ` nor `LEN` nor `CODE`. -/
theorem witness_ReadsSame :
    ReadsSame .gen sample { sample with code := ⟨[]⟩ } ∧ ReadsSame .assign sample { sample with code := ⟨[]⟩ } ∧
    writesFreq (.fget 0) = false ∧ writesLen (.fget 0) = false ∧ writesCode (.fget 0) = false ∧
    sample ≠ { sample with code := ⟨[]⟩ } := ⟨fun _ => rfl, fun _ => rfl, rfl, rfl, rfl, by decide⟩

end Sys2Proof.Tests
end

section
/-! Tables as maps: in canonical form the cells are the entries, so equal maps are equal data (10_state R35); and what
a list of writes leaves. -/

namespace Sys2Proof.Machine

variable {α : Type}

/-- Behind strictly ascending symbols a lookup finds exactly the listed pairs. -/
theorem lookupCell_eq_some_iff {cs : List (Symbol × α)} (h : (cs.map Prod.fst).Pairwise (· < ·)) (s : Symbol) (v : α) :
    lookupCell s cs = some v ↔ (s, v) ∈ cs := by
  induction cs with
  | nil => simp [lookupCell]
  | cons c cs ih =>
    obtain ⟨k, w⟩ := c
    simp only [List.map_cons, List.pairwise_cons] at h
    obtain ⟨hk, hcs⟩ := h
    by_cases hks : k = s
    · subst hks
      have hnot : (k, v) ∉ cs := fun hm => BitVec.lt_irrefl k (hk k (List.mem_map_of_mem (f := Prod.fst) hm))
      simp [lookupCell, hnot, eq_comm]
    · simp [lookupCell, hks, Ne.symm hks, ih hcs]

/-- A table in canonical form holds its entries and nothing else. -/
theorem Table.cells_eq_entries {t : Table α} (h : t.wf = true) : t.cells = t.entries := by
  simp only [Table.wf, decide_eq_true_eq] at h
  have hcells : t.cells.Pairwise fun a b => a.1 < b.1 := List.pairwise_map.mp h
  have asymm : ∀ a b : Symbol × α, a.1 < b.1 → b.1 < a.1 → a = b := fun a b hab hba =>
    absurd (BitVec.lt_trans hab hba) (BitVec.lt_irrefl _)
  have nodup : ∀ {l : List (Symbol × α)}, l.Pairwise (fun a b => a.1 < b.1) → l.Nodup := fun hl =>
    hl.imp <| by
      rintro a _ hlt rfl
      exact BitVec.lt_irrefl _ hlt
  have hperm : t.cells.Perm t.entries := by
    refine (List.perm_ext_iff_of_nodup (nodup hcells) (nodup t.entries_pairwise)).mpr fun e => ?_
    rw [← lookupCell_eq_some_iff h, Table.mem_entries]
    rfl
  exact hperm.eq_of_pairwise (fun a b _ _ => asymm a b) hcells t.entries_pairwise

/-- Two tables in canonical form that are the same map are the same data (10_state R35). -/
theorem Table.ext_of_get {t u : Table α} (ht : t.wf = true) (hu : u.wf = true) (h : ∀ x, t.get x = u.get x) :
    t = u := by
  have hc : t.cells = u.cells := by
    rw [Table.cells_eq_entries ht, Table.cells_eq_entries hu, Table.entries_congr h]
  cases t; cases u; exact congrArg Table.mk hc

/-- The writes of a list of entries, first to last. -/
def Table.setAll (t : Table α) (es : List (Symbol × α)) : Table α := es.foldl (fun u e => u.set e.1 e.2) t

@[simp] theorem Table.setAll_nil (t : Table α) : t.setAll [] = t := rfl

@[simp] theorem Table.setAll_cons (t : Table α) (e : Symbol × α) (es : List (Symbol × α)) :
    t.setAll (e :: es) = (t.set e.1 e.2).setAll es := rfl

theorem Table.setAll_append (t : Table α) (es es' : List (Symbol × α)) :
    t.setAll (es ++ es') = (t.setAll es).setAll es' := List.foldl_append

/-- Writes to different symbols: an entry reads as the list says, where it says nothing as before. -/
theorem Table.get_setAll_eq_some_iff {es : List (Symbol × α)} (h : (es.map Prod.fst).Nodup) (t : Table α)
    (x : Symbol) (v : α) :
    (t.setAll es).get x = some v ↔ (x, v) ∈ es ∨ (x ∉ es.map Prod.fst ∧ t.get x = some v) := by
  induction es generalizing t with
  | nil => simp
  | cons e es ih =>
    obtain ⟨k, w⟩ := e
    simp only [List.map_cons, List.nodup_cons] at h
    obtain ⟨hk, hes⟩ := h
    rw [Table.setAll_cons, ih hes, Table.get_set]
    by_cases hx : x = k
    · subst hx
      have hnot : (x, v) ∉ es := fun hm => hk (List.mem_map_of_mem (f := Prod.fst) hm)
      simp [hnot, hk, eq_comm]
    · simp [hx]

/-- Writing the entries of a table into an empty one gives the same map. -/
theorem Table.get_setAll_entries (t : Table α) (x : Symbol) : (Table.empty.setAll t.entries).get x = t.get x := by
  refine Option.ext fun v => ?_
  rw [Table.get_setAll_eq_some_iff t.dom_nodup, Table.mem_entries]
  simp

theorem allAbsent_iff_size (t : Table α) : AllAbsent t ↔ t.size = 0 := t.size_eq_zero.symm

@[simp] theorem allAbsent_empty : AllAbsent (Table.empty : Table α) := fun _ => rfl

end Sys2Proof.Machine
end

section
/-! What a command does, once: the tables it leaves and its response, one case per success and per failure. -/

namespace Sys2Proof.Machine

/-- `Effect s i u r`: in state `s` the command `i` leaves the tables of `u` and answers `r`. -/
inductive Effect (s : State) : Instr → State → Response → Prop
  | nop : Effect s .nop s (Response.plain .ok)
  | clr (m : BitVec 3) : Effect s (.clr m) (s.clear m) (Response.plain .ok)
  | cntAbsent {x : Symbol} (h : s.freq.get x = none) : Effect s (.cnt x) (s.setFreq x 1) (Response.plain .ok)
  | cntBelow {x : Symbol} {c : Count} (h : s.freq.get x = some c) (hc : c < Config.freqMax) :
      Effect s (.cnt x) (s.setFreq x (c + 1)) (Response.plain .ok)
  | cntFull {x : Symbol} (h : s.freq.get x = some Config.freqMax) :
      Effect s (.cnt x) s (Response.plain .countOverflow)
  | fset (x : Symbol) (c : Count) : Effect s (.fset x c) (s.setFreq x c) (Response.plain .ok)
  | fget (x : Symbol) : Effect s (.fget x) s (countResponse (s.freq.get x))
  | buildEmpty (h : s.freq.size = 0) : Effect s .build s (Response.plain .emptyAlphabet)
  | build (h : s.freq.size ≠ 0) :
      Effect s .build (s.built (buildLengths s.freq)) (numberResponse (buildLengths s.freq).size)
  | lsetZero (x : Symbol) : Effect s (.lset x 0) s (Response.plain .badOperand)
  | lset (x : Symbol) {l : Len} (h : l ≠ 0) : Effect s (.lset x l) (s.setLen x l) (Response.plain .ok)
  | lget (x : Symbol) : Effect s (.lget x) s (lenResponse (s.len.get x))
  | assignEmpty (h : s.len.size = 0) : Effect s .assign s (Response.plain .emptyAlphabet)
  | assignOverflow (h : s.len.size ≠ 0) (ha : assignCodes s.len = none) :
      Effect s .assign s (Response.plain .codeOverflow)
  | assign {codes : Table Codeword} (h : s.len.size ≠ 0) (ha : assignCodes s.len = some codes) :
      Effect s .assign (s.assigned codes) (numberResponse codes.size)
  | cget (x : Symbol) : Effect s (.cget x) s (codeResponse (s.code.get x))
  | genEmpty (h : s.freq.size = 0) : Effect s .gen s (Response.plain .emptyAlphabet)
  | genOverflow (h : s.freq.size ≠ 0) (ha : assignCodes (buildLengths s.freq) = none) :
      Effect s .gen s (Response.plain .codeOverflow)
  | gen {codes : Table Codeword} (h : s.freq.size ≠ 0) (ha : assignCodes (buildLengths s.freq) = some codes) :
      Effect s .gen (s.generated codes) (numberResponse codes.size)

/-- Every command has an effect, and its execution answers it as a next state. -/
theorem exec_effect (i : Instr) (s : State) : ∃ u r, Effect s i u r ∧ exec i s = .next (u.respond r) := by
  cases i with
  | nop => exact ⟨_, _, .nop, execNop_eq s⟩
  | clr m => exact ⟨_, _, .clr m, execClr_eq m s⟩
  | cnt x =>
    match h : s.freq.get x with
    | none => exact ⟨_, _, .cntAbsent h, execCnt_absent h⟩
    | some c =>
      by_cases hc : c < Config.freqMax
      · exact ⟨_, _, .cntBelow h hc, execCnt_below h hc⟩
      · have hmax : c = Config.freqMax := by simp only [Config.freqMax] at hc ⊢; bv_omega
        subst hmax
        exact ⟨_, _, .cntFull h, execCnt_full h⟩
  | fset x c => exact ⟨_, _, .fset x c, execFset_eq x c s⟩
  | fget x => exact ⟨_, _, .fget x, execFget_eq x s⟩
  | build =>
    by_cases h : s.freq.size = 0
    · exact ⟨_, _, .buildEmpty h, execBuild_empty h⟩
    · exact ⟨_, _, .build h, execBuild_built h⟩
  | lset x l =>
    by_cases h : l = 0
    · subst h
      exact ⟨_, _, .lsetZero x, execLset_zero x s⟩
    · exact ⟨_, _, .lset x h, execLset_set x s h⟩
  | lget x => exact ⟨_, _, .lget x, execLget_eq x s⟩
  | assign =>
    by_cases h : s.len.size = 0
    · exact ⟨_, _, .assignEmpty h, execAssign_empty h⟩
    · match ha : assignCodes s.len with
      | none => exact ⟨_, _, .assignOverflow h ha, execAssign_overflow h ha⟩
      | some codes => exact ⟨_, _, .assign h ha, execAssign_assigned h ha⟩
  | cget x => exact ⟨_, _, .cget x, execCget_eq x s⟩
  | gen =>
    by_cases h : s.freq.size = 0
    · exact ⟨_, _, .genEmpty h, execGen_empty h⟩
    · match ha : assignCodes (buildLengths s.freq) with
      | none => exact ⟨_, _, .genOverflow h ha, execGen_overflow h ha⟩
      | some codes => exact ⟨_, _, .gen h ha, execGen_generated h ha⟩

/-- Whatever execution answers is the effect of the command with its response offered. -/
theorem exec_inversion {i : Instr} {s t : State} (h : exec i s = .next t) :
    ∃ u r, Effect s i u r ∧ t = u.respond r := by
  obtain ⟨u, r, he, hx⟩ := exec_effect i s
  rw [hx] at h
  cases h
  exact ⟨u, r, he, rfl⟩

end Sys2Proof.Machine
end

section
/-! The encoder's word decodes to its command (30_encoding R70). -/

namespace Sys2Proof

/-- A field narrower than `imm` that stands in its low bits is read back, and the bits above it are zero. -/
theorem extractLsb'_setWidth_low {k n : Nat} (v : BitVec k) (hk : k ≤ n) :
    (v.setWidth n).extractLsb' 0 k = v := by
  refine BitVec.eq_of_getLsbD_eq fun i hi => ?_
  simp [hi, show i < n by omega]

theorem extractLsb'_setWidth_high {k n m : Nat} (v : BitVec k) : (v.setWidth n).extractLsb' k m = 0 := by
  refine BitVec.eq_of_getLsbD_eq fun i hi => ?_
  simp

theorem decode_encode (i : Instr) : decode (encode i) = .ok i := by
  rw [decode, encode, fieldsOf_wordOf]
  cases i with
  | clr m => simp [decodeFields, toFields, decodeClr, extractLsb'_setWidth_low, extractLsb'_setWidth_high]
  | lset s l => simp [decodeFields, toFields, decodeLset, extractLsb'_setWidth_low, extractLsb'_setWidth_high]
  | cnt s | fget s | lget s | cget s => simp [decodeFields, toFields, decodeSymbol]
  | nop | build | assign | gen => simp [decodeFields, toFields, decodePlain]
  | fset s c => simp [decodeFields, toFields]

end Sys2Proof
end

section
/-! The builder's arena as trees: the merge loop keeps one tree per pending node and ends with one tree over all entries
of `FREQ`; the traversal writes each leaf's depth. Every statement is for any legal choice (41 R108). -/

namespace Sys2Proof.Machine

/-! ### Trees -/

/-- The tree below a node of the arena, a leaf with its symbol and its count (41 R102, R104). -/
inductive HuffTree where
  | leaf (x : Symbol) (c : Count)
  | node (left right : HuffTree)

namespace HuffTree

/-- The leaves, left before right. -/
def leaves : HuffTree → List (Symbol × Count)
  | leaf x c => [(x, c)]
  | node l r => l.leaves ++ r.leaves

/-- The symbol and the depth of each leaf, left before right, for a root at depth `d`. -/
def depths : HuffTree → Nat → List (Symbol × Nat)
  | leaf x _, d => [(x, d)]
  | node l r, d => l.depths (d + 1) ++ r.depths (d + 1)

/-- The number of levels below the root. -/
def height : HuffTree → Nat
  | leaf _ _ => 0
  | node l r => max l.height r.height + 1

theorem one_le_length_leaves (T : HuffTree) : 1 ≤ T.leaves.length := by
  cases T with
  | leaf x c => simp [leaves]
  | node l r =>
    have := one_le_length_leaves l
    simp only [leaves, List.length_append]
    omega

/-- Each level holds one leaf at least, and the last level two. -/
theorem height_lt_length_leaves (T : HuffTree) : T.height < T.leaves.length := by
  induction T with
  | leaf x c => simp [height, leaves]
  | node l r ihl ihr =>
    have hl := one_le_length_leaves l
    have hr := one_le_length_leaves r
    simp only [height, leaves, List.length_append]
    omega

theorem map_fst_depths (T : HuffTree) (d : Nat) : (T.depths d).map Prod.fst = T.leaves.map Prod.fst := by
  induction T generalizing d with
  | leaf x c => rfl
  | node l r ihl ihr => simp [depths, leaves, ihl, ihr]

theorem depth_bounds {T : HuffTree} {d : Nat} {e : Symbol × Nat} (h : e ∈ T.depths d) :
    d ≤ e.2 ∧ e.2 ≤ d + T.height := by
  induction T generalizing d with
  | leaf x c =>
    rw [depths, List.mem_singleton] at h
    simp [h, height]
  | node l r ihl ihr =>
    simp only [height]
    rcases List.mem_append.mp h with h | h
    · have := ihl h; omega
    · have := ihr h; omega

/-- Below an inner node every leaf is at least one level down. -/
theorem one_le_depth {T : HuffTree} {e : Symbol × Nat} (hT : 2 ≤ T.leaves.length) (h : e ∈ T.depths 0) :
    1 ≤ e.2 := by
  cases T with
  | leaf x c => simp [leaves] at hT
  | node l r => rcases List.mem_append.mp h with h | h <;> exact (depth_bounds h).1

end HuffTree

/-! ### Trees in the arena -/

/-- The slot `i` is the root of the tree: a leaf holds its count as frequency, an inner node's children are the roots
of its subtrees (41 R102, R104, R106). -/
def Arena.Holds (ar : Arena) : HuffTree → NodeIdx → Prop
  | .leaf x c, i => ar.slot i = some (.leaf x (nodeFreqOfCount c))
  | .node l r, i => ∃ fr a b, ar.slot i = some (.inner fr a b) ∧ ar.Holds l a ∧ ar.Holds r b

/-- Writing the next slot changes no tree. -/
theorem Arena.Holds.push {ar : Arena} {T : HuffTree} {i : NodeIdx} (nd : Node) (h : ar.Holds T i) :
    (ar.push nd).Holds T i := by
  have keep : ∀ {j : NodeIdx} {n : Node}, ar.slot j = some n → (ar.push nd).slot j = some n := fun hj => by
    rw [Arena.slot_push_below nd (List.getElem?_eq_some_iff.mp hj).1, hj]
  induction T generalizing i with
  | leaf x c => exact keep h
  | node l r ihl ihr =>
    obtain ⟨fr, a, b, hs, hl, hr⟩ := h
    exact ⟨fr, a, b, keep hs, ihl hl, ihr hr⟩

/-- The trees of the pending nodes, in their order, hold all entries of `FREQ`; and each merge puts one node into the
arena and lowers the number of pending nodes by one (41 R107). -/
structure Forest (f : Table Count) (ar : Arena) (p : List NodeIdx) (ts : List HuffTree) : Prop where
  holds : List.Forall₂ ar.Holds ts p
  leaves : (ts.flatMap HuffTree.leaves).Perm f.entries
  slots : ar.nodes.length + p.length = 2 * f.size

/-- After step 1 every leaf is a tree of its own (41 R102, R103). -/
theorem initial_forest (f : Table Count) :
    Forest f (leaves f) (initialPending f.size) (f.entries.map fun e => .leaf e.1 e.2) where
  holds := by
    rw [initialPending, List.forall₂_map_left_iff, List.forall₂_map_right_iff, List.forall₂_iff_get]
    refine ⟨by simp [Table.size], fun k hk _ => ?_⟩
    have hk' : k % 512 = k := Nat.mod_eq_of_lt (by have := f.size_le; simp only [Table.size] at this; omega)
    simp [Arena.Holds, Arena.slot, leafNodes, hk', hk]
  leaves := by
    rw [List.flatMap_map]
    simp [HuffTree.leaves]
  slots := by
    rw [leaves_length, initialPending_length]
    omega

/-- The two nodes a legal choice pops are two different places of the pending list (41 R104). -/
theorem perm_popped {sel : Selector} (hsel : LegalSelector sel) {ar : Arena} {p : List NodeIdx} (hp : 1 < p.length) :
    p.Perm (sel ar p :: sel ar (p.erase (sel ar p)) ::
      (p.erase (sel ar p)).erase (sel ar (p.erase (sel ar p)))) := by
  have ha : sel ar p ∈ p := (hsel ar p (List.ne_nil_of_length_pos (by omega))).1
  have hlen := List.length_erase_of_mem ha
  have hb : sel ar (p.erase (sel ar p)) ∈ p.erase (sel ar p) :=
    (hsel ar _ (List.ne_nil_of_length_pos (by omega))).1
  exact (List.perm_cons_erase ha).trans ((List.perm_cons_erase hb).cons _)

/-- Each merge lowers the number of pending nodes by one (41 R107). -/
theorem mergeOnce_pending_length {sel : Selector} (hsel : LegalSelector sel) {ar : Arena} {p : List NodeIdx}
    (hp : 1 < p.length) : (mergeOnce sel ar p).2.length + 1 = p.length := by
  have := (perm_popped hsel (ar := ar) hp).length_eq
  simp only [List.length_cons] at this
  simp only [mergeOnce, List.length_append, List.length_singleton]
  omega

/-- A merge makes one tree of the trees of the two nodes that the choice popped; the other trees stay. -/
theorem mergeOnce_holds {sel : Selector} (hsel : LegalSelector sel) {ar : Arena} {p : List NodeIdx}
    {ts : List HuffTree} (h : List.Forall₂ ar.Holds ts p) (hp : 1 < p.length)
    (hroom : ar.nodes.length < Config.arenaSize) :
    ∃ l r us, ts.Perm (l :: r :: us) ∧ ar.Holds l (sel ar p) ∧ ar.Holds r (sel ar (p.erase (sel ar p))) ∧
      List.Forall₂ (mergeOnce sel ar p).1.Holds (us ++ [.node l r]) (mergeOnce sel ar p).2 := by
  obtain ⟨ts', hperm, hts'⟩ : Relation.Comp List.Perm (List.Forall₂ ar.Holds) ts _ := by
    rw [← List.forall₂_comp_perm_eq_perm_comp_forall₂]
    exact ⟨p, h, perm_popped hsel (ar := ar) hp⟩
  obtain - | @⟨l, _, ts₁, _, hl, hts₁⟩ := hts'
  obtain - | @⟨r, _, us, _, hr, hus⟩ := hts₁
  refine ⟨l, r, us, hperm, hl, hr, List.rel_append (hus.imp fun _ _ hu => hu.push _) ?_⟩
  exact .cons ⟨_, _, _, Arena.slot_push_next _ hroom, hl.push _, hr.push _⟩ .nil

theorem Forest.mergeOnce {sel : Selector} (hsel : LegalSelector sel) {f : Table Count} {ar : Arena} {p : List NodeIdx}
    {ts : List HuffTree} (h : Forest f ar p ts) (hp : 1 < p.length) :
    ∃ ts', Forest f (mergeOnce sel ar p).1 (mergeOnce sel ar p).2 ts' := by
  have hslots := h.slots
  have hroom : ar.nodes.length < Config.arenaSize := by
    have := f.size_le
    simp only [Config.arenaSize]
    omega
  obtain ⟨l, r, us, hperm, -, -, hholds⟩ := mergeOnce_holds hsel h.holds hp hroom
  refine ⟨us ++ [.node l r], hholds, ?_, ?_⟩
  · have hleaves : ((us ++ [HuffTree.node l r]).flatMap HuffTree.leaves).Perm ((l :: r :: us).flatMap HuffTree.leaves) := by
      simpa [HuffTree.leaves] using
        List.perm_append_comm (l₁ := us.flatMap HuffTree.leaves) (l₂ := l.leaves ++ r.leaves)
    exact hleaves.trans ((hperm.symm.flatMap_right _).trans h.leaves)
  · have := mergeOnce_pending_length hsel (ar := ar) hp
    have hpush : (Machine.mergeOnce sel ar p).1.nodes.length = ar.nodes.length + 1 := by
      simp [Machine.mergeOnce, hroom]
    omega

theorem Forest.of_length_one {f : Table Count} {ar : Arena} {p : List NodeIdx} {ts : List HuffTree}
    (h : Forest f ar p ts) (hp : p.length = 1) : ∃ root T, p = [root] ∧ Forest f ar [root] [T] := by
  obtain ⟨root, rfl⟩ := List.length_eq_one_iff.mp hp
  obtain ⟨T, rfl⟩ := List.length_eq_one_iff.mp (h.holds.length_eq.trans hp)
  exact ⟨root, T, rfl, h⟩

/-- The merge loop ends with one pending node, whose tree holds all entries (41 R107). -/
theorem mergeLoop_forest {sel : Selector} (hsel : LegalSelector sel) {f : Table Count} {k : Nat} {ar : Arena}
    {p : List NodeIdx} {ts : List HuffTree} (h : Forest f ar p ts) (hp : 1 ≤ p.length) (hk : p.length ≤ k + 1) :
    ∃ ar' root T, mergeLoop sel k ar p = (ar', [root]) ∧ Forest f ar' [root] [T] := by
  induction k generalizing ar p ts with
  | zero =>
    obtain ⟨root, T, rfl, hT⟩ := h.of_length_one (by omega)
    exact ⟨ar, root, T, mergeLoop_done (by simp), hT⟩
  | succ k ih =>
    by_cases hone : p.length = 1
    · obtain ⟨root, T, rfl, hT⟩ := h.of_length_one hone
      exact ⟨ar, root, T, mergeLoop_done (by simp), hT⟩
    · have hmany : 1 < p.length := by omega
      have hlen := mergeOnce_pending_length hsel (ar := ar) hmany
      obtain ⟨ts', h'⟩ := h.mergeOnce hsel hmany
      rw [mergeLoop_step hmany]
      exact ih h' (by omega) (by omega)

/-- The tree of a table with at least one entry. -/
theorem buildTree_tree {sel : Selector} (hsel : LegalSelector sel) {f : Table Count} (hf : f.size ≠ 0) :
    ∃ ar root T, buildTree sel f = (ar, [root]) ∧ ar.Holds T root ∧ T.leaves.Perm f.entries ∧
      ar.nodes.length + 1 = 2 * f.size := by
  obtain ⟨ar, root, T, hb, ⟨hholds, hleaves, hslots⟩⟩ :=
    mergeLoop_forest hsel (k := f.size) (initial_forest f) (by simp; omega) (by simp)
  obtain - | ⟨hT, -⟩ := hholds
  exact ⟨ar, root, T, hb, hT, by simpa using hleaves, by simpa using hslots⟩

/-! ### The traversal -/

/-- What the traversal emits: each leaf's symbol with the bit-length of its depth (41 R112). -/
def HuffTree.emitted (T : HuffTree) (n d : Nat) : List (Symbol × Len) :=
  (T.depths d).map fun e => (e.1, emittedLen n (BitVec.ofNat 8 e.2))

theorem HuffTree.map_fst_emitted (T : HuffTree) (n d : Nat) :
    (T.emitted n d).map Prod.fst = T.leaves.map Prod.fst := by
  rw [HuffTree.emitted, List.map_map, ← T.map_fst_depths d]
  rfl

/-- With levels enough the traversal writes what the tree emits (41 R110). -/
theorem visit_tree {ar : Arena} {T : HuffTree} {i : NodeIdx} (n : Nat) {k : Nat} (d : Nat) (out : Table Len)
    (h : ar.Holds T i) (hk : T.height < k) :
    visit ar n k i (BitVec.ofNat 8 d) out = out.setAll (T.emitted n d) := by
  induction T generalizing i k d out with
  | leaf x c =>
    obtain ⟨k, rfl⟩ := Nat.exists_eq_succ_of_ne_zero (Nat.ne_zero_of_lt hk)
    exact visit_leaf h
  | node l r ihl ihr =>
    obtain ⟨k, rfl⟩ := Nat.exists_eq_succ_of_ne_zero (Nat.ne_zero_of_lt hk)
    obtain ⟨fr, a, b, hs, hl, hr⟩ := h
    simp only [HuffTree.height] at hk
    have hd : BitVec.ofNat 8 d + 1 = BitVec.ofNat 8 (d + 1) := (BitVec.ofNat_add d 1).symm
    rw [Nat.succ_eq_add_one, visit_inner hs, hd, ihl _ _ hl (by omega), ihr _ _ hr (by omega), ← Table.setAll_append]
    simp only [HuffTree.emitted, HuffTree.depths, List.map_append]

/-- The lengths of a table with at least one entry are the depths in a tree over its entries (41 R110, R112). -/
theorem buildLengthsWith_tree {sel : Selector} (hsel : LegalSelector sel) {f : Table Count} (hf : f.size ≠ 0) :
    ∃ T : HuffTree, T.leaves.Perm f.entries ∧ T.leaves.length = f.size ∧
      buildLengthsWith sel f = Table.empty.setAll (T.emitted f.size 0) := by
  obtain ⟨ar, root, T, hb, hT, hleaves, hslots⟩ := buildTree_tree hsel hf
  have hlen : T.leaves.length = f.size := hleaves.length_eq
  have hheight := T.height_lt_length_leaves
  refine ⟨T, hleaves, hlen, ?_⟩
  simp only [buildLengthsWith, hb]
  exact visit_tree f.size 0 _ hT (by omega)

/-- Without an entry there is no node and no length. -/
theorem buildLengthsWith_empty (sel : Selector) {f : Table Count} (hf : f.size = 0) :
    buildLengthsWith sel f = Table.empty := by
  have hnodes : (leafNodes f).length = 0 := (leaves_length f).trans hf
  simp [buildLengthsWith, buildTree, hf, mergeLoop, hnodes, visit]

/-- An emitted length as an entry of the lengths built, and back. -/
theorem get_emitted_eq_some_iff {f : Table Count} {T : HuffTree} (hT : T.leaves.Perm f.entries) (n d : Nat)
    (x : Symbol) (l : Len) :
    (Table.empty.setAll (T.emitted n d)).get x = some l ↔ (x, l) ∈ T.emitted n d := by
  have hnodup : ((T.emitted n d).map Prod.fst).Nodup := by
    rw [HuffTree.map_fst_emitted]
    exact (hT.map Prod.fst).nodup_iff.mpr f.dom_nodup
  simp [Table.get_setAll_eq_some_iff hnodup]

/-- The lengths have the domain of `FREQ` (41 R114). -/
theorem buildLengthsWith_domain {sel : Selector} (hsel : LegalSelector sel) (f : Table Count) :
    SameDomain (buildLengthsWith sel f) f := by
  intro x
  by_cases hf : f.size = 0
  · simp [buildLengthsWith_empty sel hf, f.size_eq_zero.mp hf x]
  · obtain ⟨T, hT, -, hb⟩ := buildLengthsWith_tree hsel hf
    have hdom : x ∈ f.dom ↔ x ∈ (T.emitted f.size 0).map Prod.fst := by
      rw [T.map_fst_emitted]
      exact (hT.map Prod.fst).mem_iff.symm
    have hlens : x ∈ (buildLengthsWith sel f).dom ↔ x ∈ (T.emitted f.size 0).map Prod.fst := by
      simp [Table.dom, Table.mem_entries, hb, get_emitted_eq_some_iff hT]
    rw [← hdom, Table.mem_dom, Table.mem_dom] at hlens
    exact not_iff_not.mp hlens

/-- No length is 0: the depth of a leaf is 1 to 255 where there are two symbols, and a single symbol gets 1
(41 R112, R118). -/
theorem buildLengthsWith_ne_zero {sel : Selector} (hsel : LegalSelector sel) {f : Table Count} {x : Symbol} {l : Len}
    (h : (buildLengthsWith sel f).get x = some l) : l ≠ 0 := by
  have hf : f.size ≠ 0 := fun h0 => by simp [buildLengthsWith_empty sel h0] at h
  obtain ⟨T, hT, hlen, hb⟩ := buildLengthsWith_tree hsel hf
  rw [hb, get_emitted_eq_some_iff hT, HuffTree.emitted, List.mem_map] at h
  obtain ⟨e, he, hl⟩ := h
  obtain ⟨-, rfl⟩ := Prod.mk.inj hl
  by_cases h1 : f.size = 1
  · simp [emittedLen, h1]
  · have hlow := HuffTree.one_le_depth (by omega) he
    have hhigh := (HuffTree.depth_bounds he).2
    have hheight := T.height_lt_length_leaves
    have hsize := f.size_le
    rw [emittedLen, if_neg h1]
    intro h0
    have : e.2 % 256 = 0 := congrArg BitVec.toNat h0
    omega

end Sys2Proof.Machine
end

section
/-! The assigner's walk over ascending lengths: the register `code` never overflows, the walk succeeds exactly on the
Kraft inequality, and every codeword it writes has its length and a suffix that fits (42 R135, R140, R141). -/

namespace Sys2Proof.Machine

/-! ### The records -/

/-- The records come in ascending length (42 R133). -/
theorem sortedRecords_ascending (t : Table Len) : (sortedRecords t).Pairwise fun a b => a.1 ≤ b.1 := by
  have htotal : Std.Total Record.le := ⟨fun a b => by simp only [Record.le]; bv_omega⟩
  have htrans : IsTrans Record Record.le := ⟨fun a b c hab hbc => by simp only [Record.le] at *; bv_omega⟩
  exact (List.pairwise_insertionSort Record.le _).imp fun h => by simp only [Record.le] at h; bv_omega

/-- A record is an entry of the table, read the other way round. -/
theorem mem_sortedRecords (t : Table Len) (l : Len) (x : Symbol) : (l, x) ∈ sortedRecords t ↔ t.get x = some l := by
  rw [(sortedRecords_perm t).mem_iff, ← Table.mem_entries]
  simp

/-- The Kraft sum of a list of records. -/
def recordSum (recs : List Record) : Nat := (recs.map fun r => 2 ^ (Config.maxLen - r.1.toNat)).sum

theorem recordSum_sortedRecords (t : Table Len) : recordSum (sortedRecords t) = kraftSum t := by
  rw [recordSum, ((sortedRecords_perm t).map _).sum_eq, List.map_map]
  rfl

/-- The weight of a shorter length in the Kraft sum, in units of a longer one's. -/
theorem two_pow_maxLen_sub {m : Nat} {l : Len} (h : m ≤ l.toNat) :
    2 ^ (Config.maxLen - m) = 2 ^ (l.toNat - m) * 2 ^ (Config.maxLen - l.toNat) := by
  rw [← Nat.pow_add]
  congr 1
  simp only [Config.maxLen]
  bv_omega

/-! ### The registers -/

/-- Padding raises `current_length` to the record's length and multiplies `code` by the power of two; nothing is
shifted out (42 R135, R140). -/
theorem padTo_eq {l : Len} {w : Walk} {k : Nat} (hl : w.length ≤ l) (hc : w.code.toNat ≤ 2 ^ w.length.toNat)
    (hk : l.toNat - w.length.toNat ≤ k) :
    (padTo l k w).length = l ∧ (padTo l k w).code.toNat = w.code.toNat * 2 ^ (l.toNat - w.length.toNat) := by
  induction k generalizing w with
  | zero =>
    have : w.length = l := by bv_omega
    simp [padTo, this]
  | succ k ih =>
    by_cases hlt : w.length < l
    · have hsucc : (w.length + 1).toNat = w.length.toNat + 1 := by bv_omega
      have hshift : (w.code <<< 1).toNat = w.code.toNat * 2 := by
        have hpow : 2 ^ w.length.toNat ≤ 2 ^ 254 := Nat.pow_le_pow_right (by decide) (by bv_omega)
        rw [BitVec.toNat_shiftLeft, Nat.shiftLeft_eq, Nat.pow_one]
        exact Nat.mod_eq_of_lt (by omega)
      have hd : l.toNat - w.length.toNat = l.toNat - (w.length.toNat + 1) + 1 := by bv_omega
      have hpad := ih (w := { length := w.length + 1, code := w.code <<< 1 }) (by bv_omega)
        (by simp only [hsucc, hshift, Nat.pow_succ]; omega) (by simp only [hsucc]; omega)
      simp only [hsucc, hshift] at hpad
      rw [padTo, if_pos hlt, hd, Nat.pow_succ']
      exact ⟨hpad.1, by rw [hpad.2, Nat.mul_assoc]⟩
    · have : w.length = l := by bv_omega
      simp [padTo, this]

theorem codeLimit_toNat (l : Len) : (codeLimit l).toNat = 2 ^ l.toNat := by
  have hpow : 2 ^ l.toNat < 2 ^ 256 := Nat.pow_lt_pow_right (by decide) l.isLt
  simpa [codeLimit, Nat.shiftLeft_eq] using Nat.mod_eq_of_lt hpow

/-- The registers at a record of length `l`, padded by `MAX_LEN` turns at most. -/
theorem padTo_maxLen {l : Len} {w : Walk} (hl : w.length ≤ l) (hc : w.code.toNat ≤ 2 ^ w.length.toNat) :
    (padTo l Config.maxLen w).length = l ∧
      (padTo l Config.maxLen w).code.toNat = w.code.toNat * 2 ^ (l.toNat - w.length.toNat) :=
  padTo_eq hl hc (by simp only [Config.maxLen]; bv_omega)

/-- The test of 42 R141 passes exactly when the padded code is below `2^l`. -/
theorem codeLimit_le_iff {l : Len} {w : Walk} (hl : w.length = l) :
    codeLimit w.length ≤ w.code ↔ 2 ^ l.toNat ≤ w.code.toNat := by
  rw [BitVec.le_def, codeLimit_toNat, hl]

/-- Past the test the increment does not overflow (42 R140). -/
theorem code_succ_toNat {l : Len} {c : CodeReg} (h : c.toNat < 2 ^ l.toNat) : (c + 1).toNat = c.toNat + 1 := by
  have hpow : 2 ^ l.toNat ≤ 2 ^ 255 := Nat.pow_le_pow_right (by decide) (by bv_omega)
  rw [BitVec.toNat_add]
  exact Nat.mod_eq_of_lt (by simp; omega)

/-- Past the test the suffix is the whole code (42 R132, R140). -/
theorem codeword_suffix_toNat {l : Len} {w : Walk} (h : w.code.toNat < 2 ^ l.toNat) :
    w.codeword.suffix.toNat = w.code.toNat := by
  have hpow : 2 ^ l.toNat ≤ 2 ^ 255 := Nat.pow_le_pow_right (by decide) (by bv_omega)
  simp only [Walk.codeword, BitVec.extractLsb'_toNat, Nat.shiftRight_zero]
  exact Nat.mod_eq_of_lt (by omega)

/-! ### The walk -/

/-- The records ahead ascend and are none of them shorter than `current_length`, and `code` is at most
`2^current_length`: what holds at every record of the walk. -/
structure Walk.Ready (w : Walk) (recs : List Record) : Prop where
  ascending : recs.Pairwise fun a b => a.1 ≤ b.1
  ahead : ∀ r ∈ recs, w.length ≤ r.1
  bounded : w.code.toNat ≤ 2 ^ w.length.toNat

/-- The registers after the record: padded to its length and incremented (42 R135). -/
def Walk.next (w : Walk) (l : Len) : Walk :=
  { padTo l Config.maxLen w with code := (padTo l Config.maxLen w).code + 1 }

variable {l : Len} {x : Symbol} {recs : List Record} {w : Walk}

theorem Walk.Ready.pad (h : w.Ready ((l, x) :: recs)) :
    (padTo l Config.maxLen w).length = l ∧
      (padTo l Config.maxLen w).code.toNat = w.code.toNat * 2 ^ (l.toNat - w.length.toNat) :=
  padTo_maxLen (h.ahead _ List.mem_cons_self) h.bounded

theorem Walk.Ready.next_length (h : w.Ready ((l, x) :: recs)) : (w.next l).length = l := h.pad.1

theorem Walk.Ready.next_code (h : w.Ready ((l, x) :: recs))
    (hc : w.code.toNat * 2 ^ (l.toNat - w.length.toNat) < 2 ^ l.toNat) :
    (w.next l).code.toNat = w.code.toNat * 2 ^ (l.toNat - w.length.toNat) + 1 := by
  have hpad := h.pad.2
  rw [← hpad] at hc ⊢
  exact code_succ_toNat hc

theorem Walk.Ready.next (h : w.Ready ((l, x) :: recs))
    (hc : w.code.toNat * 2 ^ (l.toNat - w.length.toNat) < 2 ^ l.toNat) : (w.next l).Ready recs where
  ascending := h.ascending.of_cons
  ahead := by
    rw [h.next_length]
    exact fun r hr => List.rel_of_pairwise_cons h.ascending hr
  bounded := by
    rw [h.next_length, h.next_code hc]
    exact hc

/-- One record of a walk: the failure of 42 R141, or its codeword and the next registers. -/
theorem walkRecords_step (h : w.Ready ((l, x) :: recs)) (out : Table Codeword) :
    walkRecords ((l, x) :: recs) w out =
      if w.code.toNat * 2 ^ (l.toNat - w.length.toNat) < 2 ^ l.toNat then
        walkRecords recs (w.next l) (out.set x (padTo l Config.maxLen w).codeword)
      else none := by
  have hlimit := codeLimit_le_iff h.pad.1
  rw [h.pad.2] at hlimit
  split
  · next hc => exact walkRecords_cons (by rw [hlimit]; omega)
  · next hc => exact walkRecords_overflow (by rw [hlimit]; omega)

/-- The walk succeeds exactly when the codes taken so far and the records ahead fit together into the Kraft
inequality (42 R141). -/
theorem walkRecords_isSome_iff (h : w.Ready recs) (out : Table Codeword) :
    (walkRecords recs w out).isSome = true ↔
      w.code.toNat * 2 ^ (Config.maxLen - w.length.toNat) + recordSum recs ≤ 2 ^ Config.maxLen := by
  induction recs generalizing w out with
  | nil =>
    have htop := two_pow_maxLen_sub (Nat.zero_le w.length.toNat)
    simp only [Nat.sub_zero] at htop
    simp only [walkRecords_nil, Option.isSome_some, recordSum, List.map_nil, List.sum_nil, Nat.add_zero, true_iff, htop]
    exact Nat.mul_le_mul_right _ h.bounded
  | cons r recs ih =>
    obtain ⟨l, x⟩ := r
    have hahead : w.length.toNat ≤ l.toNat := h.ahead _ List.mem_cons_self
    have hsum : recordSum ((l, x) :: recs) = 2 ^ (Config.maxLen - l.toNat) + recordSum recs := rfl
    have htop := two_pow_maxLen_sub (Nat.zero_le l.toNat)
    simp only [Nat.sub_zero] at htop
    rw [walkRecords_step h, hsum, two_pow_maxLen_sub hahead, ← Nat.mul_assoc, ← Nat.add_assoc]
    split_ifs with hc
    · refine (ih (h.next hc) _).trans ?_
      rw [h.next_length, h.next_code hc, Nat.add_one_mul]
    · have hle := Nat.mul_le_mul_right (2 ^ (Config.maxLen - l.toNat)) (Nat.not_lt.mp hc)
      have hpos : 0 < 2 ^ (Config.maxLen - l.toNat) := Nat.two_pow_pos _
      simp only [Option.isSome_none, Bool.false_eq_true, false_iff]
      omega

/-- Every codeword the walk writes has the length of its symbol's record and a suffix below `2^len`. -/
theorem walkRecords_codeword (h : w.Ready recs) {out c : Table Codeword} (hw : walkRecords recs w out = some c)
    {y : Symbol} {v : Codeword} (hv : c.get y = some v) :
    out.get y = some v ∨ ((v.len, y) ∈ recs ∧ v.suffix.toNat < 2 ^ v.len.toNat) := by
  induction recs generalizing w out with
  | nil =>
    rw [walkRecords_nil, Option.some.injEq] at hw
    exact .inl (hw ▸ hv)
  | cons r recs ih =>
    obtain ⟨l, x⟩ := r
    rw [walkRecords_step h] at hw
    split_ifs at hw with hc
    rcases ih (h.next hc) hw with hout | ⟨hmem, hsuffix⟩
    · rw [Table.get_set] at hout
      split_ifs at hout with hyx
      · have hlen : v.len = l := by
          rw [← Option.some.inj hout]
          exact h.pad.1
        refine .inr ⟨by simp [hlen, hyx], ?_⟩
        rw [← h.pad.2] at hc
        rw [hlen, ← Option.some.inj hout, codeword_suffix_toNat hc]
        exact hc
      · exact .inl hout
    · exact .inr ⟨List.mem_cons_of_mem _ hmem, hsuffix⟩

/-! ### The assignment -/

/-- The walk starts at the first record's length with code 0 (42 R134). -/
theorem assignCodes_ready (t : Table Len) :
    Walk.Ready { length := (recAt (sortedRecords t) 0).1, code := 0 } (sortedRecords t) where
  ascending := sortedRecords_ascending t
  ahead := by
    have hasc := sortedRecords_ascending t
    intro r hr
    cases hrecs : sortedRecords t with
    | nil => simp [hrecs] at hr
    | cons q recs =>
      rw [hrecs] at hasc hr
      rcases List.mem_cons.mp hr with rfl | hr
      · exact BitVec.le_refl _
      · exact List.rel_of_pairwise_cons hasc hr
  bounded := by simp

/-- The assignment succeeds exactly on lengths that satisfy the Kraft inequality (42 R141). -/
theorem assignCodes_isSome_iff (t : Table Len) : (assignCodes t).isSome = true ↔ Kraft t := by
  rw [assignCodes_eq, walkRecords_isSome_iff (assignCodes_ready t), recordSum_sortedRecords, Kraft]
  simp

/-- A codeword has its symbol's length and a suffix below `2^len` (42 R142). -/
theorem assignCodes_codeword {t : Table Len} {c : Table Codeword} (h : assignCodes t = some c) {y : Symbol}
    {v : Codeword} (hv : c.get y = some v) : t.get y = some v.len ∧ v.suffix.toNat < 2 ^ v.len.toNat := by
  rw [assignCodes_eq] at h
  rcases walkRecords_codeword (assignCodes_ready t) h hv with hout | ⟨hmem, hsuffix⟩
  · simp at hout
  · exact ⟨(mem_sortedRecords t _ _).mp hmem, hsuffix⟩

/-- The assignment depends on the map alone (42 R138). -/
theorem assignCodes_congr {t u : Table Len} (h : ∀ x, t.get x = u.get x) : assignCodes t = assignCodes u := by
  simp only [assignCodes, sortedRecords, Table.entries_congr h]

end Sys2Proof.Machine
end

section
/-! The invariants of every reachable state (10_state R26): they hold at reset, every operation of a step keeps them, so
every step does. -/

namespace Sys2Proof.Machine

/-! ### Responses -/

theorem Response.plain_canonical (e : Status) : (Response.plain e).canonical := fun _ => rfl

theorem Response.value_canonical (l : Len) (d : BitVec 256) : (Response.value l d).canonical := fun h => absurd rfl h

theorem countResponse_canonical (c : Option Count) : (countResponse c).canonical := by
  cases c with
  | none => exact Response.plain_canonical .ok
  | some c => exact Response.value_canonical 0 _

theorem lenResponse_canonical (l : Option Len) : (lenResponse l).canonical := by
  cases l with
  | none => exact Response.plain_canonical .ok
  | some l => exact Response.value_canonical l 0

theorem codeResponse_canonical (w : Option Codeword) : (codeResponse w).canonical := by
  cases w with
  | none => exact Response.plain_canonical .ok
  | some w => exact Response.value_canonical w.len _

/-- Every response a command answers is `OK` or carries its status alone (30_encoding R66). -/
theorem Effect.canonical {s u : State} {i : Instr} {r : Response} (h : Effect s i u r) : r.canonical := by
  cases h with
  | fget x => exact countResponse_canonical _
  | lget x => exact lenResponse_canonical _
  | cget x => exact codeResponse_canonical _
  | build | assign | gen => exact Response.value_canonical 0 _
  | nop | clr | cntAbsent | cntBelow | cntFull | fset | buildEmpty | lsetZero | lset | assignEmpty | assignOverflow
  | genEmpty | genOverflow => exact Response.plain_canonical _

/-! ### The operations -/

namespace State.Inv

variable {s : State}

/-- Empty tables meet every clause about tables. -/
theorem of_empty (hf : s.freq = Table.empty) (hl : s.len = Table.empty) (hc : s.code = Table.empty)
    (hr : ∀ r ∈ s.responses, r.canonical) : s.Inv where
  freqForm := by simp [hf]
  lenForm := by simp [hl]
  codeForm := by simp [hc]
  lenRange := by simp [hl]
  codeRange := by simp [hc]
  codeCanonical := .inl (hc ▸ allAbsent_empty)
  responseForm := hr

theorem reset : State.reset.Inv := of_empty rfl rfl rfl (by simp [State.responses])

theorem resetEvent (h : s.Inv) : s.resetEvent.Inv :=
  of_empty rfl rfl rfl fun r hr =>
    h.responseForm r (List.mem_append_left _ (by simpa [State.responses] using hr))

theorem withInputs (h : s.Inv) (rest : List HostInput) : (s.withInputs rest).Inv := { h with }

theorem deliver (h : s.Inv) : s.deliver.Inv where
  freqForm := by simpa using h.freqForm
  lenForm := by simpa using h.lenForm
  codeForm := by simpa using h.codeForm
  lenRange := by simpa using h.lenRange
  codeRange := by simpa using h.codeRange
  codeCanonical := by simpa using h.codeCanonical
  responseForm := by simpa [State.responses] using h.responseForm

theorem accept (h : s.Inv) (rest : List HostInput) : (s.accept rest).Inv := (h.withInputs rest).deliver

/-- Offering a response of canonical form keeps the invariants. -/
theorem respond (h : s.Inv) {r : Response} (hr : r.canonical) : (s.respond r).Inv :=
  { h with
    responseForm := by
      intro q hq
      simp only [State.responses, State.respond_delivered, State.respond_rsp, Option.toList_some, List.mem_append,
        List.mem_singleton] at hq
      rcases hq with hq | rfl
      · exact h.responseForm q (List.mem_append_left _ hq)
      · exact hr }

theorem clear (h : s.Inv) (m : BitVec 3) : (s.clear m).Inv :=
  { h with
    freqForm := by rw [State.clear_freq]; split; exacts [Table.empty_wf, h.freqForm]
    lenForm := by rw [State.clear_len]; split; exacts [Table.empty_wf, h.lenForm]
    codeForm := by rw [State.clear_code]; split; exacts [Table.empty_wf, h.codeForm]
    lenRange := by rw [State.clear_len]; split; exacts [by simp, h.lenRange]
    codeRange := by rw [State.clear_code]; split; exacts [by simp, h.codeRange]
    codeCanonical := by rw [State.clear_code]; split; exacts [.inl allAbsent_empty, h.codeCanonical] }

theorem setFreq (h : s.Inv) (x : Symbol) (c : Count) : (s.setFreq x c).Inv :=
  { h with freqForm := Table.set_wf _ _ _ h.freqForm }

theorem setLen (h : s.Inv) (x : Symbol) {l : Len} (hl : l ≠ 0) : (s.setLen x l).Inv :=
  { h with
    lenForm := Table.set_wf _ _ _ h.lenForm
    lenRange := by
      intro y k hy
      rw [State.setLen_len, Table.get_set] at hy
      split_ifs at hy with hyx
      · exact Option.some.inj hy ▸ hl
      · exact h.lenRange y k hy }

/-- `BUILD` leaves lengths in range (41 R118). -/
theorem built (h : s.Inv) (f : Table Count) : (s.built (buildLengths f)).Inv :=
  { h with
    freqForm := Table.empty_wf
    lenForm := buildLengthsWith_wf selectLowest f
    lenRange := fun _ _ hx => buildLengthsWith_ne_zero selectLowest_legal hx }

/-- The codes of non-empty lengths in range are a canonical table of codewords of the data model (42 R142). -/
theorem assigned (h : s.Inv) {t : Table Len} {codes : Table Codeword} (ht : t.size ≠ 0)
    (hr : ∀ x l, t.get x = some l → l ≠ 0) (ha : assignCodes t = some codes) : (s.assigned codes).Inv :=
  { h with
    lenForm := Table.empty_wf
    codeForm := assignCodes_wf ha
    lenRange := by simp
    codeRange := by
      intro x w hx
      obtain ⟨hlen, hsuffix⟩ := assignCodes_codeword ha hx
      exact ⟨hr x _ hlen, hsuffix⟩
    codeCanonical :=
      .inr ⟨t, fun h0 => ht ((allAbsent_iff_size t).mp h0), hr, (assignCodes_isSome_iff t).mp (by simp [ha]), ha⟩ }

end State.Inv

/-! ### Steps -/

/-- What `GEN` writes is what `BUILD` and then `ASSIGN` write (43 R151). -/
theorem generated_eq_built_assigned (s : State) (lens : Table Len) (codes : Table Codeword) :
    s.generated codes = (s.built lens).assigned codes := rfl

theorem size_buildLengths_ne_zero {f : Table Count} (hf : f.size ≠ 0) : (buildLengths f).size ≠ 0 := by
  intro h0
  refine hf (f.size_eq_zero.mpr fun x => ?_)
  exact (buildLengthsWith_domain selectLowest_legal f x).mp ((Table.size_eq_zero _).mp h0 x)

theorem Effect.keeps_inv {s u : State} {i : Instr} {r : Response} (he : Effect s i u r) (h : s.Inv) : u.Inv := by
  cases he with
  | clr m => exact h.clear m
  | cntAbsent | cntBelow | fset => exact h.setFreq _ _
  | build => exact h.built _
  | lset x hl => exact h.setLen x hl
  | assign hs ha => exact h.assigned hs h.lenRange ha
  | gen hf ha =>
    rw [generated_eq_built_assigned s (buildLengths s.freq)]
    exact (h.built _).assigned (size_buildLengths_ne_zero hf)
      (fun _ _ => buildLengthsWith_ne_zero selectLowest_legal) ha
  | nop | cntFull | fget | buildEmpty | lsetZero | lget | assignEmpty | assignOverflow | cget | genEmpty
  | genOverflow => exact h

theorem exec_keeps_inv {i : Instr} {s t : State} (h : s.Inv) (hx : exec i s = .next t) : t.Inv := by
  obtain ⟨u, r, he, rfl⟩ := exec_inversion hx
  exact (he.keeps_inv h).respond he.canonical

theorem step_keeps_inv {s t : State} (h : s.Inv) (hs : step s = .next t) : t.Inv := by
  rcases step_cases s with ⟨-, hx⟩ | ⟨rest, -, hx⟩ | ⟨rest, -, hx⟩ | ⟨w, rest, e, -, -, hx⟩ | ⟨w, rest, i, -, -, hx⟩
  case inr.inr.inr.inr => exact exec_keeps_inv (h.accept rest) (hx ▸ hs)
  all_goals rw [hx] at hs; cases hs
  · exact h
  · exact (h.withInputs rest).resetEvent
  · exact (h.withInputs rest).deliver
  · exact (h.accept rest).respond (Response.plain_canonical _)

/-- Settles O15: by the cases of a step, and for a command by its effect. -/
theorem everyStepKeepsTheInvariants : Obligations.EveryStepKeepsTheInvariants := fun _ _ => step_keeps_inv

/-- Settles O14: empty tables meet every clause. -/
theorem invariantsHoldAtReset : Obligations.InvariantsHoldAtReset := State.Inv.reset

/-- Settles O9. -/
theorem resetStateIsEmpty : Obligations.ResetStateIsEmpty :=
  ⟨allAbsent_empty, allAbsent_empty, allAbsent_empty, rfl, rfl⟩

/-- Settles O17: tables in canonical form are determined by their entries. -/
theorem equalMapsAreEqualTables : Obligations.EqualMapsAreEqualTables := by
  intro s t hs ht ⟨hfreq, hlen, hcode⟩
  exact ⟨Table.ext_of_get ht.freqForm hs.freqForm hfreq, Table.ext_of_get ht.lenForm hs.lenForm hlen,
    Table.ext_of_get ht.codeForm hs.codeForm hcode⟩

end Sys2Proof.Machine
end

section
/-! Running a list of commands from any state with given tables, and the program that reaches a given triple of tables
(10_state R26 item 3). -/

namespace Sys2Proof.Machine

/-! ### Runs -/

/-- Every state steps to a next state (60_exceptions R176). -/
theorem step_next (s : State) : ∃ t, step s = .next t := by
  rcases step_cases s with ⟨-, h⟩ | ⟨rest, -, h⟩ | ⟨rest, -, h⟩ | ⟨w, rest, e, -, -, h⟩ | ⟨w, rest, i, -, -, h⟩
  case inr.inr.inr.inr =>
    obtain ⟨u, r, -, hx⟩ := exec_effect i (s.accept rest)
    exact ⟨_, h.trans hx⟩
  all_goals exact ⟨_, h⟩

theorem runSteps_zero (s : State) : runSteps 0 s = .next s := rfl

theorem core_run_succ (M : Host.Core) {s t : M.State} (k : Nat) (h : M.step s = .next t) :
    M.run (k + 1) s = M.run k t := by
  simp only [Host.Core.run, h]

theorem runSteps_succ {s t : State} (k : Nat) (h : step s = .next t) : runSteps (k + 1) s = runSteps k t :=
  core_run_succ Sys2Proof.core k h

/-- A run of `j + k` steps is a run of `j` and then one of `k`. -/
theorem runSteps_add {s t : State} {j : Nat} (k : Nat) (h : runSteps j s = .next t) :
    runSteps (j + k) s = runSteps k t := by
  induction j generalizing s with
  | zero =>
    cases h
    rw [Nat.zero_add]
  | succ j ih =>
    obtain ⟨u, hs⟩ := step_next s
    rw [runSteps_succ j hs] at h
    rw [Nat.add_right_comm, runSteps_succ _ hs, ih h]

/-- The host's plan to present the commands, each as its word. -/
def presented (is : List Instr) : List HostInput := is.map fun i => .command (encode i)

@[simp] theorem presented_append (is js : List Instr) : presented (is ++ js) = presented is ++ presented js :=
  List.map_append

/-- From every state with the tables of `s` whose host presents the commands next, their run leaves the tables of `t`
and the rest of the host's plan. -/
def Executes (is : List Instr) (s t : State) : Prop :=
  ∀ (s' : State) (rest : List HostInput), SameTables s s' → s'.inputs = presented is ++ rest →
    ∃ t', runSteps is.length s' = .next t' ∧ SameTables t t' ∧ t'.inputs = rest

namespace Executes

theorem nil (s : State) : Executes [] s s := fun s' _ hs hi => ⟨s', runSteps_zero s', hs, hi⟩

theorem append {is js : List Instr} {s t u : State} (h : Executes is s t) (h' : Executes js t u) :
    Executes (is ++ js) s u := by
  intro s' rest hs hi
  rw [presented_append, List.append_assoc] at hi
  obtain ⟨t', hrun, ht, hi'⟩ := h s' _ hs hi
  obtain ⟨u', hrun', hu, hrest⟩ := h' t' rest ht hi'
  exact ⟨u', by rw [List.length_append, runSteps_add _ hrun, hrun'], hu, hrest⟩

/-- A single command, from what it does in every state with the same tables. -/
theorem single {i : Instr} {s t : State}
    (h : ∀ s', SameTables s s' → ∃ t', exec i s' = .next t' ∧ SameTables t t' ∧ t'.inputs = s'.inputs) :
    Executes [i] s t := by
  intro s' rest hs hi
  obtain ⟨t', hx, ht, hi'⟩ := h (s'.accept rest) (by simpa [SameTables] using hs)
  have hstep : step s' = .next t' := (step_command hi (decode_encode i)).trans hx
  exact ⟨t', by rw [List.length_singleton, runSteps_succ 0 hstep, runSteps_zero], ht, by simpa using hi'⟩

theorem fset (x : Symbol) (c : Count) (s : State) : Executes [.fset x c] s (s.setFreq x c) :=
  single fun s' ⟨hf, hl, hc⟩ => ⟨_, execFset_eq x c s', ⟨by simp [hf], hl, hc⟩, rfl⟩

theorem lset (x : Symbol) {l : Len} (hl : l ≠ 0) (s : State) : Executes [.lset x l] s (s.setLen x l) :=
  single fun s' ⟨hf, hlen, hc⟩ => ⟨_, execLset_set x s' hl, ⟨hf, by simp [hlen], hc⟩, rfl⟩

theorem assign {s : State} {codes : Table Codeword} (hs : s.len.size ≠ 0) (ha : assignCodes s.len = some codes) :
    Executes [.assign] s (s.assigned codes) :=
  single fun s' ⟨hf, hlen, _⟩ =>
    ⟨_, execAssign_assigned (s := s') (hlen ▸ hs) (hlen ▸ ha), ⟨hf, rfl, rfl⟩, rfl⟩

/-- One `FSET` per entry loads a list of counts (40 R83). -/
theorem fsets (es : List (Symbol × Count)) (s : State) :
    Executes (es.map fun e => .fset e.1 e.2) s { s with freq := s.freq.setAll es } := by
  induction es generalizing s with
  | nil => exact nil s
  | cons e es ih => exact (fset e.1 e.2 s).append (ih (s.setFreq e.1 e.2))

/-- One `LSET` per entry loads a list of lengths of at least 1 (41 R120). -/
theorem lsets (es : List (Symbol × Len)) (hes : ∀ e ∈ es, e.2 ≠ 0) (s : State) :
    Executes (es.map fun e => .lset e.1 e.2) s { s with len := s.len.setAll es } := by
  induction es generalizing s with
  | nil => exact nil s
  | cons e es ih =>
    obtain ⟨he, hes⟩ := List.forall_mem_cons.mp hes
    exact (lset e.1 he s).append (ih hes (s.setLen e.1 e.2))

end Executes

/-! ### Reaching a triple of tables -/

theorem entries_ne_zero {t : Table Len} (h : ∀ x l, t.get x = some l → l ≠ 0) : ∀ e ∈ t.entries, e.2 ≠ 0 :=
  fun e he => h e.1 e.2 ((t.mem_entries e.1 e.2).mp he)

/-- `LSET` for every length and then `ASSIGN` leave the codes of the lengths and nothing else. -/
theorem executes_assign_of_lengths {b : Table Len} {c : Table Codeword} (hb : ¬ AllAbsent b)
    (hr : ∀ x l, b.get x = some l → l ≠ 0) (ha : assignCodes b = some c) :
    Executes ((b.entries.map fun e => .lset e.1 e.2) ++ [.assign]) State.reset { State.reset with code := c } := by
  have hmap := b.get_setAll_entries
  have hne : (Table.empty.setAll b.entries).size ≠ 0 := fun h0 =>
    hb fun x => (hmap x).symm.trans ((Table.size_eq_zero _).mp h0 x)
  exact (Executes.lsets b.entries (entries_ne_zero hr) State.reset).append
    (Executes.assign hne ((assignCodes_congr hmap).trans ha))

/-- Every empty or canonical code table is reached with the other two tables empty. -/
theorem exists_executes_code {c : Table Codeword}
    (hc : AllAbsent c ∨
      ∃ b : Table Len, ¬ AllAbsent b ∧ (∀ x v, b.get x = some v → v ≠ 0) ∧ Kraft b ∧ assignCodes b = some c) :
    ∃ is c', Executes is State.reset { State.reset with code := c' } ∧ ∀ x, c'.get x = c.get x := by
  rcases hc with hc | ⟨b, hb, hr, -, ha⟩
  · exact ⟨[], Table.empty, Executes.nil _, fun x => (hc x).symm⟩
  · exact ⟨_, c, executes_assign_of_lengths hb hr ha, fun _ => rfl⟩

/-- Settles O16: the code table is assigned first, then the lengths and the counts are loaded beside it. -/
theorem everyLegalTripleIsReachable : Obligations.EveryLegalTripleIsReachable := by
  intro f l c hl hc
  obtain ⟨is, c', his, hc'⟩ := exists_executes_code hc
  have hrun := (his.append (Executes.lsets l.entries (entries_ne_zero hl) _)).append (Executes.fsets f.entries _)
  obtain ⟨t, ht, ⟨hfreq, hlen, hcode⟩, -⟩ :=
    hrun (State.reset.withProgram _) [] ⟨rfl, rfl, rfl⟩ (List.append_nil _).symm
  refine ⟨_, t, ht, fun x => ?_, fun x => ?_, fun x => ?_⟩
  · exact hfreq ▸ f.get_setAll_entries x
  · exact hlen ▸ l.get_setAll_entries x
  · exact hcode ▸ hc' x

end Sys2Proof.Machine
end

section
/-! What a command may write and what its response depends on (20_memory R49), by the cases of its effect. -/

namespace Sys2Proof.Machine

/-! ### Results depend on the map alone -/

theorem Table.size_congr {α : Type} {t u : Table α} (h : ∀ x, t.get x = u.get x) : t.size = u.size :=
  congrArg List.length (Table.entries_congr h)

/-- The built lengths depend on the map alone (41 R123). -/
theorem buildLengths_congr {f g : Table Count} (h : ∀ x, f.get x = g.get x) : buildLengths f = buildLengths g := by
  simp only [buildLengths, buildLengthsWith, buildTree, leaves, leafNodes, Table.size_congr h, Table.entries_congr h]

/-! ### Effects -/

/-- The converse of `exec_inversion`: whatever is an effect of a command is what its execution answers. -/
theorem Effect.exec_eq {s u : State} {i : Instr} {r : Response} (h : Effect s i u r) :
    exec i s = .next (u.respond r) := by
  cases h with
  | nop => exact execNop_eq s
  | clr m => exact execClr_eq m s
  | cntAbsent h => exact execCnt_absent h
  | cntBelow h hc => exact execCnt_below h hc
  | cntFull h => exact execCnt_full h
  | fset x c => exact execFset_eq x c s
  | fget x => exact execFget_eq x s
  | buildEmpty h => exact execBuild_empty h
  | build h => exact execBuild_built h
  | lsetZero x => exact execLset_zero x s
  | lset x h => exact execLset_set x s h
  | lget x => exact execLget_eq x s
  | assignEmpty h => exact execAssign_empty h
  | assignOverflow h ha => exact execAssign_overflow h ha
  | assign h ha => exact execAssign_assigned h ha
  | cget x => exact execCget_eq x s
  | genEmpty h => exact execGen_empty h
  | genOverflow h ha => exact execGen_overflow h ha
  | gen h ha => exact execGen_generated h ha

/-! ### Write sets -/

theorem Effect.freq_of_not_writesFreq {s u : State} {i : Instr} {r : Response} (h : Effect s i u r)
    (hw : writesFreq i = false) : u.freq = s.freq := by
  cases h with
  | clr m => exact if_neg (Bool.eq_false_iff.mp hw)
  | cntAbsent | cntBelow | fset | build | gen => cases hw
  | _ => rfl

theorem Effect.len_of_not_writesLen {s u : State} {i : Instr} {r : Response} (h : Effect s i u r)
    (hw : writesLen i = false) : u.len = s.len := by
  cases h with
  | clr m => exact if_neg (Bool.eq_false_iff.mp hw)
  | build | lset | assign | gen => cases hw
  | _ => rfl

theorem Effect.code_of_not_writesCode {s u : State} {i : Instr} {r : Response} (h : Effect s i u r)
    (hw : writesCode i = false) : u.code = s.code := by
  cases h with
  | clr m => exact if_neg (Bool.eq_false_iff.mp hw)
  | assign | gen => cases hw
  | _ => rfl

theorem Effect.sameHost {s u : State} {i : Instr} {r : Response} (h : Effect s i u r) : SameHost s u := by
  cases h <;> exact ⟨rfl, rfl⟩

/-! ### Read sets -/

/-- A state that agrees on what the command reads takes the same case of its effect, with the same response. -/
theorem Effect.of_readsSame {s t u : State} {i : Instr} {r : Response} (h : Effect s i t r) (hr : ReadsSame i s u) :
    ∃ v, Effect u i v r := by
  cases h with
  | nop => exact ⟨_, .nop⟩
  | clr m => exact ⟨_, .clr m⟩
  | cntAbsent h => exact ⟨_, .cntAbsent (hr.symm.trans h)⟩
  | cntBelow h hc => exact ⟨_, .cntBelow (hr.symm.trans h) hc⟩
  | cntFull h => exact ⟨_, .cntFull (hr.symm.trans h)⟩
  | fset x c => exact ⟨_, .fset x c⟩
  | fget x => exact congrArg countResponse hr ▸ ⟨_, .fget x⟩
  | buildEmpty h => exact ⟨_, .buildEmpty (Table.size_congr hr ▸ h)⟩
  | build h => exact buildLengths_congr hr ▸ ⟨_, .build (Table.size_congr hr ▸ h)⟩
  | lsetZero x => exact ⟨_, .lsetZero x⟩
  | lset x h => exact ⟨_, .lset x h⟩
  | lget x => exact congrArg lenResponse hr ▸ ⟨_, .lget x⟩
  | assignEmpty h => exact ⟨_, .assignEmpty (Table.size_congr hr ▸ h)⟩
  | assignOverflow h ha => exact ⟨_, .assignOverflow (Table.size_congr hr ▸ h) (assignCodes_congr hr ▸ ha)⟩
  | assign h ha => exact ⟨_, .assign (Table.size_congr hr ▸ h) (assignCodes_congr hr ▸ ha)⟩
  | cget x => exact congrArg codeResponse hr ▸ ⟨_, .cget x⟩
  | genEmpty h => exact ⟨_, .genEmpty (Table.size_congr hr ▸ h)⟩
  | genOverflow h ha => exact ⟨_, .genOverflow (Table.size_congr hr ▸ h) (buildLengths_congr hr ▸ ha)⟩
  | gen h ha => exact ⟨_, .gen (Table.size_congr hr ▸ h) (buildLengths_congr hr ▸ ha)⟩

/-- Settles O59: both parts by the cases of the command's effect. -/
theorem commandsKeepTheirReadAndWriteSets : Obligations.CommandsKeepTheirReadAndWriteSets := by
  constructor
  · intro i s t hx
    obtain ⟨u, r, he, rfl⟩ := exec_inversion hx
    exact ⟨he.freq_of_not_writesFreq, he.len_of_not_writesLen, he.code_of_not_writesCode, he.sameHost⟩
  · intro i s u hr
    obtain ⟨t, r, he, hx⟩ := exec_effect i s
    obtain ⟨v, hv⟩ := he.of_readsSame hr
    exact ⟨_, _, hx, hv.exec_eq, rfl⟩

end Sys2Proof.Machine
end

section
/-! Commands that leave the same state when executed twice (20_memory R44). -/

namespace Sys2Proof.Machine

/-! ### Writing twice -/

/-- A later write to the same symbol is the one that stays. -/
theorem insertCell_insertCell {α : Type} (s : Symbol) (v w : α) (cs : List (Symbol × α)) :
    insertCell s w (insertCell s v cs) = insertCell s w cs := by
  induction cs with
  | nil => simp [insertCell]
  | cons c cs ih =>
    obtain ⟨k, _⟩ := c
    by_cases hlt : s < k
    · simp [insertCell, hlt]
    · by_cases heq : s = k
      · simp [insertCell, heq]
      · simp [insertCell, hlt, heq, ih]

@[simp] theorem Table.set_set {α : Type} (t : Table α) (s : Symbol) (v w : α) : (t.set s v).set s w = t.set s w :=
  congrArg Table.mk (insertCell_insertCell s v w t.cells)

namespace State

@[simp] theorem respond_respond (s : State) (r q : Response) : (s.respond r).respond q = s.respond q := rfl

@[simp] theorem setFreq_respond (s : State) (r : Response) (x : Symbol) (c : Count) :
    (s.respond r).setFreq x c = (s.setFreq x c).respond r := rfl

@[simp] theorem setLen_respond (s : State) (r : Response) (x : Symbol) (l : Len) :
    (s.respond r).setLen x l = (s.setLen x l).respond r := rfl

@[simp] theorem clear_respond (s : State) (r : Response) (m : BitVec 3) :
    (s.respond r).clear m = (s.clear m).respond r := rfl

@[simp] theorem setFreq_setFreq (s : State) (x : Symbol) (c d : Count) :
    (s.setFreq x c).setFreq x d = s.setFreq x d := by
  simp [setFreq]

@[simp] theorem setLen_setLen (s : State) (x : Symbol) (l k : Len) :
    (s.setLen x l).setLen x k = s.setLen x k := by
  simp [setLen]

@[simp] theorem clear_clear (s : State) (m : BitVec 3) : (s.clear m).clear m = s.clear m := by
  simp +contextual [clear]

end State

/-! ### Executing twice -/

/-- Settles O57: the second execution writes what already stands there and answers as the first. -/
theorem readsAndLoadsAreIdempotent : Obligations.ReadsAndLoadsAreIdempotent := by
  intro i s t hi hx
  obtain ⟨u, r, he, rfl⟩ := exec_inversion hx
  rcases hi with ⟨x, rfl⟩ | ⟨x, rfl⟩ | ⟨x, rfl⟩ | ⟨x, c, rfl⟩ | ⟨x, l, rfl⟩ | ⟨m, rfl⟩ <;> cases he
  case fget => exact (Effect.fget x).exec_eq
  case lget => exact (Effect.lget x).exec_eq
  case cget => exact (Effect.cget x).exec_eq
  case fset => simp [(Effect.fset x c).exec_eq]
  case lsetZero => exact (Effect.lsetZero x).exec_eq
  case lset hl => simp [(Effect.lset x hl).exec_eq]
  case clr => simp [(Effect.clr m).exec_eq]

end Sys2Proof.Machine
end

section
/-! What the decoder decides, by the case table of 30_encoding R70: each case accepts under a condition on the fields the
command does not use and refuses otherwise, so a legal word is exactly the word of its command. -/

namespace Sys2Proof

/-! ### The cases of an opcode -/

/-- The decoder's answer `d` is the command `i` under the condition `p`, and a refusal without it. -/
def Decides (d : Except Illegal Instr) (p : Prop) (i : Instr) : Prop :=
  (p → d = .ok i) ∧ (¬ p → ∃ e, d = .error e)

theorem Decides.eq_ok_iff {d : Except Illegal Instr} {p : Prop} {i j : Instr} (h : Decides d p i) :
    d = .ok j ↔ p ∧ i = j := by
  by_cases hp : p
  · simp [h.1 hp, hp]
  · obtain ⟨e, he⟩ := h.2 hp
    simp [he, hp]

theorem Decides.error_iff {d : Except Illegal Instr} {p : Prop} {i : Instr} (h : Decides d p i) :
    (∃ e, d = .error e) ↔ ¬ p := by
  refine ⟨fun ⟨e, he⟩ hp => ?_, h.2⟩
  cases he.symm.trans (h.1 hp)

theorem decodePlain_decides (f : Fields) (i : Instr) : Decides (decodePlain f i) (f.sym = 0 ∧ f.imm = 0) i := by
  unfold decodePlain Decides
  split_ifs with hs hi <;> simp_all

theorem decodeSymbol_decides (f : Fields) (i : Symbol → Instr) :
    Decides (decodeSymbol f i) (f.imm = 0) (i f.sym) := by
  unfold decodeSymbol Decides
  split_ifs with hi <;> simp_all

theorem decodeClr_decides (f : Fields) :
    Decides (decodeClr f) (f.sym = 0 ∧ f.imm.extractLsb' 3 29 = 0) (.clr (f.imm.extractLsb' 0 3)) := by
  unfold decodeClr Decides
  split_ifs with hs hi <;> simp_all

theorem decodeLset_decides (f : Fields) :
    Decides (decodeLset f) (f.imm.extractLsb' 8 24 = 0) (.lset f.sym (f.imm.extractLsb' 0 8)) := by
  unfold decodeLset Decides
  split_ifs with hi <;> simp_all

/-- The table of R70, a case per opcode: the fields with that opcode and `rsv = 0`, the condition on the fields that the
command does not use, and the command. -/
inductive CaseRow : Fields → Prop → Instr → Prop
  | nop (sym : BitVec 8) (imm : BitVec 32) : CaseRow ⟨0x00, sym, 0, imm⟩ (sym = 0 ∧ imm = 0) .nop
  | clr (sym : BitVec 8) (imm : BitVec 32) :
      CaseRow ⟨0x01, sym, 0, imm⟩ (sym = 0 ∧ imm.extractLsb' 3 29 = 0) (.clr (imm.extractLsb' 0 3))
  | cnt (sym : BitVec 8) (imm : BitVec 32) : CaseRow ⟨0x10, sym, 0, imm⟩ (imm = 0) (.cnt sym)
  | fset (sym : BitVec 8) (imm : BitVec 32) : CaseRow ⟨0x11, sym, 0, imm⟩ True (.fset sym imm)
  | fget (sym : BitVec 8) (imm : BitVec 32) : CaseRow ⟨0x12, sym, 0, imm⟩ (imm = 0) (.fget sym)
  | build (sym : BitVec 8) (imm : BitVec 32) : CaseRow ⟨0x20, sym, 0, imm⟩ (sym = 0 ∧ imm = 0) .build
  | lset (sym : BitVec 8) (imm : BitVec 32) :
      CaseRow ⟨0x21, sym, 0, imm⟩ (imm.extractLsb' 8 24 = 0) (.lset sym (imm.extractLsb' 0 8))
  | lget (sym : BitVec 8) (imm : BitVec 32) : CaseRow ⟨0x22, sym, 0, imm⟩ (imm = 0) (.lget sym)
  | assign (sym : BitVec 8) (imm : BitVec 32) : CaseRow ⟨0x30, sym, 0, imm⟩ (sym = 0 ∧ imm = 0) .assign
  | cget (sym : BitVec 8) (imm : BitVec 32) : CaseRow ⟨0x32, sym, 0, imm⟩ (imm = 0) (.cget sym)
  | gen (sym : BitVec 8) (imm : BitVec 32) : CaseRow ⟨0x40, sym, 0, imm⟩ (sym = 0 ∧ imm = 0) .gen

/-- The decoder decides by the table. -/
theorem CaseRow.decides {f : Fields} {p : Prop} {i : Instr} (h : CaseRow f p i) : Decides (decodeFields f) p i := by
  cases h with
  | nop | build | assign | gen => exact decodePlain_decides _ _
  | cnt | fget | lget | cget => exact decodeSymbol_decides _ _
  | clr => exact decodeClr_decides _
  | lset => exact decodeLset_decides _
  | fset => exact ⟨fun _ => rfl, fun h => absurd trivial h⟩

theorem decodeFields_reserved {f : Fields} (h : f.rsv ≠ 0) : decodeFields f = .error .reservedNotZero :=
  if_pos h

/-- The opcodes of the table (30_encoding R64). -/
def assignedOps : List (BitVec 8) := [0x00, 0x01, 0x10, 0x11, 0x12, 0x20, 0x21, 0x22, 0x30, 0x32, 0x40]

theorem decodeFields_unassigned {f : Fields} (hr : f.rsv = 0) (ho : f.op ∉ assignedOps) :
    decodeFields f = .error .opcodeUnassigned := by
  simp only [assignedOps, List.mem_cons, List.not_mem_nil, or_false, not_or] at ho
  simp only [decodeFields, hr, ho, ne_eq, not_true_eq_false, if_false]

/-- Fields whose reserved field is zero and whose opcode is assigned fall under a case of the table. -/
theorem exists_caseRow {f : Fields} (hr : f.rsv = 0) (ho : f.op ∈ assignedOps) : ∃ p i, CaseRow f p i := by
  obtain ⟨op, sym, rsv, imm⟩ := f
  subst hr
  simp only [assignedOps, List.mem_cons, List.not_mem_nil, or_false] at ho
  rcases ho with rfl | rfl | rfl | rfl | rfl | rfl | rfl | rfl | rfl | rfl | rfl
  exacts [⟨_, _, .nop sym imm⟩, ⟨_, _, .clr sym imm⟩, ⟨_, _, .cnt sym imm⟩, ⟨_, _, .fset sym imm⟩,
    ⟨_, _, .fget sym imm⟩, ⟨_, _, .build sym imm⟩, ⟨_, _, .lset sym imm⟩, ⟨_, _, .lget sym imm⟩,
    ⟨_, _, .assign sym imm⟩, ⟨_, _, .cget sym imm⟩, ⟨_, _, .gen sym imm⟩]

/-! ### A legal word is the word of its command -/

/-- A value whose bits from `k` on are zero is its low `k` bits. -/
theorem setWidth_extractLsb'_low {k m : Nat} {v : BitVec (k + m)} (h : v.extractLsb' k m = 0) :
    (v.extractLsb' 0 k).setWidth (k + m) = v := by
  refine BitVec.eq_of_getLsbD_eq fun i hi => ?_
  by_cases hk : i < k
  · simp [hi, hk]
  · have hbit : (v.extractLsb' k m).getLsbD (i - k) = false := by rw [h]; exact BitVec.getLsbD_zero
    rw [BitVec.getLsbD_extractLsb', show k + (i - k) = i by omega] at hbit
    simp_all [show i - k < m by omega]

theorem CaseRow.toFields_eq {f : Fields} {p : Prop} {i : Instr} (h : CaseRow f p i) (hp : p) : toFields i = f := by
  cases h with
  | nop | build | assign | gen => rw [hp.1, hp.2]; rfl
  | cnt | fget | lget | cget => rw [hp]; rfl
  | fset => rfl
  | clr sym imm => rw [hp.1, toFields, setWidth_extractLsb'_low (k := 3) (m := 29) hp.2]
  | lset sym imm => rw [toFields, setWidth_extractLsb'_low (k := 8) (m := 24) hp]

/-- Fields that decode to a command are that command's fields (30_encoding R70). -/
theorem toFields_of_decodeFields {f : Fields} {i : Instr} (h : decodeFields f = .ok i) : toFields i = f := by
  by_cases hr : f.rsv = 0
  · by_cases ho : f.op ∈ assignedOps
    · obtain ⟨p, j, hrow⟩ := exists_caseRow hr ho
      obtain ⟨hp, rfl⟩ := hrow.decides.eq_ok_iff.mp h
      exact hrow.toFields_eq hp
    · cases (decodeFields_unassigned hr ho).symm.trans h
  · cases (decodeFields_reserved hr).symm.trans h

/-- A word decodes to a command exactly when it is the command's word (30_encoding R70). -/
theorem decode_eq_ok_iff {w : CmdWord} {i : Instr} : decode w = .ok i ↔ encode i = w := by
  refine ⟨fun h => ?_, fun h => h ▸ decode_encode i⟩
  rw [encode, toFields_of_decodeFields h, wordOf_fieldsOf]

/-- Settles O1: what decodes to a command falls under that command's case of the table, whose fields are the
command's. -/
theorem decodeAndEncodeAgree : Obligations.DecodeAndEncodeAgree :=
  ⟨decode_encode, fun _ _ => decode_eq_ok_iff.mp⟩

end Sys2Proof
end

section
/-! The decoder against the case table (30_encoding R70), the checks of the fields (R68) and the rows of the opcode
table (R64). -/

namespace Sys2Proof

open Machine

/-! ### The case table and the checks of the fields -/

/-- Settles O2: every clause is a case of the table, or one of the two refusals by `rsv` and by `op`. -/
theorem decodeFollowsTheCaseTable : Obligations.DecodeFollowsTheCaseTable := by
  intro w op sym rsv imm hop hsym hrsv himm
  have hd : decode w = decodeFields ⟨op, sym, rsv, imm⟩ := by rw [← hop, ← hsym, ← hrsv, ← himm]; rfl
  refine ⟨fun hr => ⟨_, hd.trans (decodeFields_reserved hr)⟩, ?_⟩
  rintro rfl
  have hcase {p : Prop} {i : Instr} (h : CaseRow ⟨op, sym, 0, imm⟩ p i) :
      (p → decode w = .ok i) ∧ (¬ p → IsIllegal w) := by
    rw [IsIllegal, hd]; exact h.decides
  have hlow (k m : Nat) (h : k + m ≤ 32) : w.extractLsb' k m = imm.extractLsb' k m := by
    rw [← himm, BitVec.extractLsb'_extractLsb'_of_le h]
  rw [hlow 3 29 (by decide), hlow 0 3 (by decide), hlow 8 24 (by decide), hlow 0 8 (by decide)]
  refine ⟨?_, ?_, ?_, ?_, ?_, ?_, ?_, ?_, ?_, ?_, ?_,
    fun ho => ⟨_, hd.trans (decodeFields_unassigned rfl ho)⟩⟩ <;> rintro rfl
  exacts [hcase (.nop sym imm), hcase (.clr sym imm), hcase (.cnt sym imm), (hcase (.fset sym imm)).1 trivial,
    hcase (.fget sym imm), hcase (.build sym imm), hcase (.lset sym imm), hcase (.lget sym imm),
    hcase (.assign sym imm), hcase (.cget sym imm), hcase (.gen sym imm)]

theorem CaseRow.wellFormed_iff {f : Fields} {p : Prop} {i : Instr} (h : CaseRow f p i) :
    f.wellFormed = true ↔ p := by
  cases h <;> simp [Fields.wellFormed, Fields.rsvOk, Fields.opOk, Fields.symOk, Fields.immOk]

/-- The decoder refuses exactly the fields that fail one of the four checks (30_encoding R68). -/
theorem isIllegal_iff_wellFormed (w : CmdWord) : IsIllegal w ↔ (fieldsOf w).wellFormed = false := by
  unfold IsIllegal decode
  by_cases hr : (fieldsOf w).rsv = 0
  · by_cases ho : (fieldsOf w).op ∈ assignedOps
    · obtain ⟨p, i, hrow⟩ := exists_caseRow hr ho
      rw [hrow.decides.error_iff, ← hrow.wellFormed_iff, Bool.not_eq_true]
    · have hop : (fieldsOf w).opOk = false := by simpa [Fields.opOk, assignedOps] using ho
      simp [decodeFields_unassigned hr ho, Fields.wellFormed, hop]
  · have hrsv : (fieldsOf w).rsvOk = false := by simpa [Fields.rsvOk] using hr
    simp [decodeFields_reserved hr, Fields.wellFormed, hrsv]

/-! ### The rows of the opcode table -/

/-- A word that matches a row, by its fields: a row's mask covers the opcode and the reserved field, and its pattern is
zero but for the opcode. -/
theorem fieldsOf_of_match {w : CmdWord} {op ms : BitVec 8} {mi : BitVec 32}
    (h : w &&& wordOf ⟨.allOnes 8, ms, .allOnes 16, mi⟩ = wordOf ⟨op, 0, 0, 0⟩) :
    ∃ sym imm, fieldsOf w = ⟨op, sym, 0, imm⟩ ∧ sym &&& ms = 0 ∧ imm &&& mi = 0 := by
  have hf := congrArg fieldsOf h
  have hm := fieldsOf_wordOf ⟨.allOnes 8, ms, .allOnes 16, mi⟩
  simp only [fieldsOf_wordOf] at hf
  simp only [fieldsOf, BitVec.extractLsb'_and, Fields.mk.injEq] at hf hm
  obtain ⟨hmop, hmsym, hmrsv, hmimm⟩ := hm
  rw [hmop, hmsym, hmrsv, hmimm, BitVec.and_allOnes, BitVec.and_allOnes] at hf
  obtain ⟨hop, hsym, hrsv, himm⟩ := hf
  exact ⟨_, _, by rw [fieldsOf, hop, hrsv], hsym, himm⟩

theorem eq_zero_of_and_allOnes {n : Nat} {v : BitVec n} (h : v &&& BitVec.allOnes n = 0) : v = 0 := by
  rwa [BitVec.and_allOnes] at h

theorem extractLsb'_eq_zero_of_and {k m : Nat} {v : BitVec (k + m)} (h : v &&& (BitVec.allOnes (k + m) <<< k) = 0) :
    v.extractLsb' k m = 0 := by
  refine BitVec.eq_of_getLsbD_eq fun j hj => ?_
  have hbit := congrArg (·.getLsbD (k + j)) h
  simpa [hj] using hbit

/-- The word decodes to a command of the row. -/
def DecodesToRow (w : CmdWord) (r : OpcodeRow) : Prop := ∃ i, decode w = .ok i ∧ rowOf i = r

/-- A row whose mask covers the fields that its case of the table wants zero: a word that matches the row decodes to the
row's command. -/
theorem decode_of_caseRow {w : CmdWord} {op ms : BitVec 8} {mi : BitVec 32} {p : BitVec 8 → BitVec 32 → Prop}
    {i : BitVec 8 → BitVec 32 → Instr} {r : OpcodeRow}
    (hrow : ∀ sym imm, CaseRow ⟨op, sym, 0, imm⟩ (p sym imm) (i sym imm))
    (h : w &&& wordOf ⟨.allOnes 8, ms, .allOnes 16, mi⟩ = wordOf ⟨op, 0, 0, 0⟩)
    (hp : ∀ sym imm, sym &&& ms = 0 → imm &&& mi = 0 → p sym imm) (hi : ∀ sym imm, rowOf (i sym imm) = r) :
    DecodesToRow w r := by
  obtain ⟨sym, imm, hf, hsym, himm⟩ := fieldsOf_of_match h
  exact ⟨_, (congrArg decodeFields hf).trans ((hrow sym imm).decides.1 (hp sym imm hsym himm)), hi sym imm⟩

/-- The rows of the commands whose one operand is the symbol. -/
theorem decode_of_symbolRow {w : CmdWord} {op : BitVec 8} {i : Symbol → Instr} {r : OpcodeRow}
    (hrow : ∀ sym imm, CaseRow ⟨op, sym, 0, imm⟩ (imm = 0) (i sym))
    (h : w &&& wordOf ⟨.allOnes 8, 0, .allOnes 16, .allOnes 32⟩ = wordOf ⟨op, 0, 0, 0⟩)
    (hi : ∀ sym, rowOf (i sym) = r) : DecodesToRow w r :=
  decode_of_caseRow hrow h (fun _ _ _ => eq_zero_of_and_allOnes) fun sym _ => hi sym

/-- The rows of the commands without an operand, whose mask covers the whole word. -/
theorem decode_of_plainRow {w : CmdWord} (i : Instr) (h : w &&& BitVec.allOnes 64 = encode i) :
    DecodesToRow w (rowOf i) :=
  ⟨i, decode_eq_ok_iff.mpr (by rw [← h, BitVec.and_allOnes]), rfl⟩

/-- A word that matches a row of the table decodes to a command of that row (30_encoding R64). -/
theorem decode_of_match {r : OpcodeRow} (hr : r ∈ opcodeTable) {w : CmdWord} (h : w &&& r.mask = r.pattern) :
    DecodesToRow w r := by
  simp only [opcodeTable, List.mem_cons, List.not_mem_nil, or_false] at hr
  rcases hr with rfl | rfl | rfl | rfl | rfl | rfl | rfl | rfl | rfl | rfl | rfl
  · exact decode_of_plainRow .nop h
  · exact decode_of_caseRow (ms := .allOnes 8) (mi := BitVec.allOnes 32 <<< 3) .clr h
      (fun _ _ hs hi => ⟨eq_zero_of_and_allOnes hs, extractLsb'_eq_zero_of_and (k := 3) (m := 29) hi⟩) fun _ _ => rfl
  · exact decode_of_symbolRow .cnt h fun _ => rfl
  · exact decode_of_caseRow (ms := 0) (mi := 0) .fset h (fun _ _ _ _ => trivial) fun _ _ => rfl
  · exact decode_of_symbolRow .fget h fun _ => rfl
  · exact decode_of_plainRow .build h
  · exact decode_of_caseRow (ms := 0) (mi := BitVec.allOnes 32 <<< 8) .lset h
      (fun _ _ _ => extractLsb'_eq_zero_of_and (k := 8) (m := 24)) fun _ _ => rfl
  · exact decode_of_symbolRow .lget h fun _ => rfl
  · exact decode_of_plainRow .assign h
  · exact decode_of_symbolRow .cget h fun _ => rfl
  · exact decode_of_plainRow .gen h

/-- The word of a command matches the command's row, which stands in the table under its mnemonic (30_encoding R64). -/
theorem rowWord (i : Instr) : Laws.RowWord.Statement i := by
  cases i with
  | nop => exact Laws.RowWord.nop
  | clr m => exact Laws.RowWord.clr m
  | cnt s => exact Laws.RowWord.cnt s
  | fset s c => exact Laws.RowWord.fset s c
  | fget s => exact Laws.RowWord.fget s
  | build => exact Laws.RowWord.build
  | lset s l => exact Laws.RowWord.lset s l
  | lget s => exact Laws.RowWord.lget s
  | assign => exact Laws.RowWord.assign
  | cget s => exact Laws.RowWord.cget s
  | gen => exact Laws.RowWord.gen

/-- Settles O3: a word that decodes matches the row of its command, and a word that matches a row decodes. -/
theorem illegalWordsAreThoseNoRowMatches : Obligations.IllegalWordsAreThoseNoRowMatches := by
  refine fun w => ⟨⟨?_, fun h => ?_⟩, isIllegal_iff_wellFormed w⟩
  · rintro ⟨e, he⟩ r hr h
    obtain ⟨i, hd, -⟩ := decode_of_match hr h
    cases he.symm.trans hd
  · match hd : decode w with
    | .error e => exact ⟨e, hd⟩
    | .ok i =>
      obtain ⟨hmem, -, hmatch⟩ := rowWord i
      rw [decode_eq_ok_iff.mp hd] at hmatch
      exact absurd hmatch (h _ hmem)

/-- Settles O4: two matching rows are both the row of the command that the word decodes to. -/
theorem matchingRowGivesTheCommand : Obligations.MatchingRowGivesTheCommand := by
  refine fun w => ⟨fun r hr q hq hwr hwq => ?_, fun r hr h => ?_⟩
  · obtain ⟨i, hi, rfl⟩ := decode_of_match hr hwr
    obtain ⟨j, hj, rfl⟩ := decode_of_match hq hwq
    cases hi.symm.trans hj
    rfl
  · obtain ⟨i, hd, rfl⟩ := decode_of_match hr h
    obtain ⟨-, hname, -⟩ := rowWord i
    exact ⟨i, hd, hname.symm⟩

/-- Settles O5: each legal word is the word that encodes its command, and the two illegal ones fail a check. -/
theorem writtenOutWordsDecode : Obligations.WrittenOutWordsDecode := by
  unfold Obligations.WrittenOutWordsDecode
  simp only [isIllegal_iff_wellFormed, decode_eq_ok_iff]
  decide

end Sys2Proof
end

section
/-! The response word carries the four fields of a response, and the host reads them back (30_encoding R65, R66). -/

namespace Sys2Proof.Machine

theorem Status.ofCode_toCode (st : Status) : Status.ofCode st.toCode = some st := by
  cases st <;> rfl

/-- Settles O6, field by field through the bits of the response word. -/
theorem responseWordHasItsFields : Obligations.ResponseWordHasItsFields := by
  intro r
  have hstatus : r.word.extractLsb' 265 4 = r.status.toCode := by
    refine BitVec.eq_of_getLsbD_eq fun i hi => ?_
    simp [Response.getLsbD_word, hi, show ¬ 265 + i < 256 by omega, show ¬ 265 + i < 264 by omega]
  have hvalid : r.word.getLsbD 264 = r.valid := (r.getLsbD_word 264).trans (by simp)
  have hlen : r.word.extractLsb' 256 8 = r.len := by
    refine BitVec.eq_of_getLsbD_eq fun i hi => ?_
    simp [Response.getLsbD_word, hi, show 256 + i < 264 by omega]
  have hdata : r.word.extractLsb' 0 256 = r.data := by
    refine BitVec.eq_of_getLsbD_eq fun i hi => ?_
    simp [Response.getLsbD_word, hi]
  refine ⟨hstatus, hvalid, hlen, hdata, ?_⟩
  rw [Response.ofWord, hstatus, hvalid, hlen, hdata, Status.ofCode_toCode, Option.map_some]

end Sys2Proof.Machine
end

section
/-! What the ports do: every command word presented is answered with exactly one response, in order
(30_encoding R61). -/

namespace Sys2Proof.Machine

/-- A presented word, legal or not, is answered: the response before it is delivered and one new response offered. -/
theorem step_presented {s : State} {w : CmdWord} {rest : List HostInput} (h : s.inputs = .command w :: rest) :
    ∃ t r, step s = .next t ∧ t.inputs = rest ∧ t.rsp = some r ∧ t.delivered = s.responses := by
  match hd : decode w with
  | .error e => exact ⟨_, _, step_illegal h hd, by simp, rfl, by simp [State.responses]⟩
  | .ok i =>
    obtain ⟨u, r, he, hx⟩ := exec_effect i (s.accept rest)
    obtain ⟨hin, hdel⟩ := he.sameHost
    exact ⟨_, r, (step_command h hd).trans hx, by simp [hin, hdel, State.responses]⟩

/-- Settles O13, by induction on the words still to come. -/
theorem oneResponsePerCommandInOrder : Obligations.OneResponsePerCommandInOrder := by
  intro s ws
  induction ws generalizing s with
  | nil => exact fun h => ⟨s, [], runSteps_zero s, h, rfl, (List.append_nil _).symm, nofun⟩
  | cons w ws ih =>
    intro h
    obtain ⟨t, r, hstep, hin, hrsp, hdel⟩ := step_presented h
    obtain ⟨t', rs, hrun, hin', hlen, hresp, hk⟩ := ih t hin
    refine ⟨t', r :: rs, (runSteps_succ _ hstep).trans hrun, hin', by simp [hlen], ?_, fun k hlt => ?_⟩
    · have hresp₁ : t.responses = s.responses ++ [r] := by simp [State.responses, hrsp, hdel]
      rw [hresp, hresp₁, List.append_assoc, List.singleton_append]
    · cases k with
      | zero => exact ⟨s, t, runSteps_zero s, hstep, h, hrsp, by simp [hrsp]⟩
      | succ k =>
        obtain ⟨u, v, hu, hv⟩ := hk k (Nat.lt_of_succ_lt_succ hlt)
        exact ⟨u, v, (runSteps_succ k hstep).trans hu, hv⟩

/-- Settles O12, by the cases of a step. -/
theorem noStepStops : Obligations.NoStepStops := step_next

/-- Settles O7, by the step's case for a legal word and the fields of the accepted state. -/
theorem stepExecutesTheDecodedCommand : Obligations.StepExecutesTheDecodedCommand := by
  intro s w rest i h hd
  exact ⟨step_command h hd, by simp [SameTables], by simp [State.cmdReady], by simp, by simp [State.responses]⟩

/-- Settles O8, by the step's case for an illegal word, which answers the status alone. -/
theorem stepAnswersIllegalWord : Obligations.StepAnswersIllegalWord := by
  intro s w rest h hw
  obtain ⟨e, hd⟩ := hw
  have hword : (Response.plain .illegalCommand).word = BitVec.ofNat 269 (5 * 2 ^ 265) := by decide +kernel
  exact ⟨_, step_illegal h hd, by simp [SameTables], rfl, congrArg some hword, by simp, by simp [State.responses]⟩

/-- Settles O11, a clause per case of the step. -/
theorem responseStaysUntilTaken : Obligations.ResponseStaysUntilTaken := by
  refine ⟨fun s rest r h hr => ?_, fun s rest h hr => ?_, fun s => step_idle⟩
  · exact ⟨_, step_take h, by simp [SameTables, hr]⟩
  · exact ⟨_, step_take h, by simp [SameTables, hr]⟩

end Sys2Proof.Machine
end

section
/-! The word of a command that carries a symbol operand, with its immediate (30_encoding R62). -/

namespace Sys2Proof

open Machine

/-- A word with reserved field zero is its opcode, its symbol and its immediate, each in its place. -/
theorem wordOf_eq_or (op x : BitVec 8) (imm : BitVec 32) :
    wordOf ⟨op, x, 0, imm⟩ = op.setWidth 64 <<< 56 ||| symField x ||| imm.setWidth 64 := by
  refine BitVec.eq_of_getLsbD_eq fun i hi => ?_
  simp only [getLsbD_wordOf, symField, BitVec.getLsbD_or, BitVec.getLsbD_shiftLeft, BitVec.getLsbD_setWidth]
  split_ifs with h32 h48 h56
  · simp [hi, show i < 48 by omega, show i < 56 by omega]
  · simp [hi, h48, show i < 56 by omega, show 32 ≤ i by omega]
  · simp [hi, h48, h56, show 32 ≤ i by omega, show i - 48 < 64 by omega]
  · simp [hi, h48, h56, show 32 ≤ i by omega, show 8 ≤ i - 48 by omega, show i - 56 < 64 by omega]

theorem encode_cnt (x : Symbol) : encode (.cnt x) = 0x1000000000000000 ||| symField x :=
  (wordOf_eq_or 0x10 x 0).trans (by simp)

theorem encode_fset (x : Symbol) (c : Count) :
    encode (.fset x c) = 0x1100000000000000 ||| symField x ||| c.setWidth 64 :=
  (wordOf_eq_or 0x11 x c).trans (by simp)

theorem encode_fget (x : Symbol) : encode (.fget x) = 0x1200000000000000 ||| symField x :=
  (wordOf_eq_or 0x12 x 0).trans (by simp)

end Sys2Proof
end

section
/-! The commands of the symbol_frequency_counter, one by one (40 R82, R83, R84), by the cases of their effect. -/

namespace Sys2Proof.Machine

/-! ### A saturating count -/

/-- What an entry stands for in a sum of counts: an absent one for 0. -/
def countOf (o : Option Count) : Nat := o.elim 0 BitVec.toNat

@[simp] theorem countOf_none : countOf none = 0 := rfl

@[simp] theorem countOf_some (c : Count) : countOf (some c) = c.toNat := rfl

theorem countOf_le (o : Option Count) : countOf o ≤ 2 ^ 32 - 1 := by
  cases o with
  | none => exact Nat.zero_le _
  | some c => exact Nat.le_sub_one_of_lt c.isLt

/-- An entry after `n` occurrences of its symbol were counted: those that no longer fit are refused (40 R82). -/
def addOccurrences (o : Option Count) (n : Nat) : Option Count :=
  if n = 0 then o else some (BitVec.ofNat 32 (min (countOf o + n) (2 ^ 32 - 1)))

@[simp] theorem addOccurrences_zero (o : Option Count) : addOccurrences o 0 = o := if_pos rfl

theorem addOccurrences_of_ne {n : Nat} (o : Option Count) (h : n ≠ 0) :
    addOccurrences o n = some (BitVec.ofNat 32 (min (countOf o + n) (2 ^ 32 - 1))) := if_neg h

theorem countOf_addOccurrences (o : Option Count) (n : Nat) :
    countOf (addOccurrences o n) = min (countOf o + n) (2 ^ 32 - 1) := by
  by_cases h : n = 0
  · subst h
    exact (Nat.min_eq_left (countOf_le o)).symm
  · rw [addOccurrences_of_ne o h, countOf_some, BitVec.toNat_ofNat]
    omega

theorem addOccurrences_addOccurrences (o : Option Count) (m n : Nat) :
    addOccurrences (addOccurrences o m) n = addOccurrences o (m + n) := by
  by_cases hn : n = 0
  · subst hn; rw [addOccurrences_zero, Nat.add_zero]
  · rw [addOccurrences_of_ne _ hn, addOccurrences_of_ne o (by omega : m + n ≠ 0), countOf_addOccurrences]
    congr 2
    omega

/-! ### The effect of `CNT` and of `FSET` on the tables -/

variable {s u : State} {x : Symbol} {r : Response}

theorem onlyFreqAt_setFreq (x : Symbol) (c : Count) (s : State) : OnlyFreqAt x s (s.setFreq x c) :=
  ⟨fun _ hy => s.freq.get_set_of_ne c hy, rfl, rfl⟩

theorem Effect.cnt_onlyFreqAt (h : Effect s (.cnt x) u r) : OnlyFreqAt x s u := by
  cases h with
  | cntAbsent => exact onlyFreqAt_setFreq x _ s
  | cntBelow => exact onlyFreqAt_setFreq x _ s
  | cntFull => exact ⟨fun _ _ => rfl, rfl, rfl⟩

theorem Effect.cnt_get_self (h : Effect s (.cnt x) u r) : u.freq.get x = addOccurrences (s.freq.get x) 1 := by
  cases h with
  | cntAbsent h => simp [h, addOccurrences]
  | @cntBelow _ c h hc =>
    have hmin : min (c.toNat + 1) (2 ^ 32 - 1) = c.toNat + 1 := by
      simp only [Config.freqMax, BitVec.lt_def] at hc
      omega
    rw [State.setFreq_freq, Table.get_set_self, h, addOccurrences_of_ne _ Nat.one_ne_zero, countOf_some, hmin,
      BitVec.ofNat_add, BitVec.ofNat_toNat, BitVec.setWidth_eq]
    rfl
  | cntFull h => rw [h]; rfl

/-- `CNT` adds to every entry the occurrences of its symbol in the text of one symbol. -/
theorem Effect.cnt_get (h : Effect s (.cnt x) u r) (y : Symbol) :
    u.freq.get y = addOccurrences (s.freq.get y) ([x].count y) := by
  by_cases hy : y = x
  · rw [hy, List.count_singleton_self, h.cnt_get_self]
  · have hzero : [x].count y = 0 := List.count_eq_zero.mpr (mt List.mem_singleton.mp hy)
    rw [hzero, addOccurrences_zero, h.cnt_onlyFreqAt.1 y hy]

/-- Counting two symbols leaves the same three maps in either order. -/
theorem Effect.cnt_comm {y : Symbol} {t u t' u' : State} {r₁ r₂ r₃ r₄ : Response} (h₁ : Effect s (.cnt x) t r₁)
    (h₂ : Effect (t.respond r₁) (.cnt y) u r₂) (h₃ : Effect s (.cnt y) t' r₃)
    (h₄ : Effect (t'.respond r₃) (.cnt x) u' r₄) : SameEntries u u' := by
  obtain ⟨-, hl₁, hc₁⟩ := h₁.cnt_onlyFreqAt
  obtain ⟨-, hl₂, hc₂⟩ := h₂.cnt_onlyFreqAt
  obtain ⟨-, hl₃, hc₃⟩ := h₃.cnt_onlyFreqAt
  obtain ⟨-, hl₄, hc₄⟩ := h₄.cnt_onlyFreqAt
  refine ⟨fun z => ?_, fun z => ?_, fun z => ?_⟩
  · simp only [h₁.cnt_get, h₂.cnt_get, h₃.cnt_get, h₄.cnt_get, State.respond_freq, addOccurrences_addOccurrences,
      Nat.add_comm]
  · simp [hl₁, hl₂, hl₃, hl₄]
  · simp [hc₁, hc₂, hc₃, hc₄]

/-! ### The three commands -/

/-- Settles O20: a clause per case of the effect of `CNT`, and both orders of two counts by its saturating sum. -/
theorem cntCountsOneOccurrence : Obligations.CntCountsOneOccurrence := by
  intro x s
  refine ⟨encode_cnt x, fun h => ?_, fun c h hc => ?_, fun c h hc => ?_, fun y _ => ?_⟩
  · exact ⟨_, (Effect.cntAbsent h).exec_eq, by simp, rfl, onlyFreqAt_setFreq x 1 s, rfl, rfl⟩
  · have hlt : c < Config.freqMax := hc
    exact ⟨_, c + 1, (Effect.cntBelow h hlt).exec_eq, by simp, by bv_omega, rfl, onlyFreqAt_setFreq x (c + 1) s,
      rfl, rfl⟩
  · have hmax : c = Config.freqMax := BitVec.eq_of_toNat_eq hc
    exact ⟨_, (Effect.cntFull (hmax ▸ h)).exec_eq, ⟨rfl, rfl, rfl⟩, rfl, rfl, rfl⟩
  · obtain ⟨t, r₁, h₁, hx₁⟩ := exec_effect (.cnt x) s
    obtain ⟨u, r₂, h₂, hx₂⟩ := exec_effect (.cnt y) (t.respond r₁)
    obtain ⟨t', r₃, h₃, hx₃⟩ := exec_effect (.cnt y) s
    obtain ⟨u', r₄, h₄, hx₄⟩ := exec_effect (.cnt x) (t'.respond r₃)
    exact ⟨_, _, _, _, hx₁, hx₂, hx₃, hx₄, (h₁.cnt_comm h₂ h₃ h₄ :)⟩

/-- Settles O21, by the one case of the effect of `FSET`. -/
theorem fsetLoadsOneEntry : Obligations.FsetLoadsOneEntry := fun x c s =>
  ⟨encode_fset x c, _, (Effect.fset x c).exec_eq, by simp, rfl, onlyFreqAt_setFreq x c s, rfl, rfl⟩

theorem countResponse_some_data (c : Count) : (countResponse (some c)).data.toNat = c.toNat :=
  (BitVec.toNat_setWidth 256 c).trans (Nat.mod_eq_of_lt (by omega))

/-- Settles O22, by the one case of the effect of `FGET` and the two forms of its answer. -/
theorem fgetAnswersTheEntry : Obligations.FgetAnswersTheEntry := by
  intro x s
  refine ⟨encode_fget x, _, _, (Effect.fget x).exec_eq, rfl, ⟨rfl, rfl, rfl⟩, ⟨rfl, rfl⟩, ?_⟩
  cases s.freq.get x with
  | none => exact ⟨rfl, rfl, fun _ => ⟨rfl, rfl⟩, nofun⟩
  | some c =>
    refine ⟨rfl, rfl, nofun, fun d hd => ?_⟩
    cases hd
    exact ⟨rfl, countResponse_some_data c⟩

end Sys2Proof.Machine
end

section
/-! Counting a text, one `CNT` per symbol: what the run leaves in `FREQ`, and its sum (40 R81, R86, R87). -/

namespace Sys2Proof.Machine

/-! ### The sum of the counts -/

theorem sum_map_filterMap_get (f : Table Count) (ys : List Symbol) :
    ((ys.filterMap fun y => (f.get y).map fun c => (y, c)).map fun e => e.2.toNat).sum =
      (ys.map fun y => countOf (f.get y)).sum := by
  induction ys with
  | nil => rfl
  | cons y ys ih => cases h : f.get y <;> simp [h, ih]

theorem totalCount_eq_sum (f : Table Count) : totalCount f = (symbols.map fun y => countOf (f.get y)).sum :=
  sum_map_filterMap_get f symbols

@[simp] theorem totalCount_empty : totalCount Table.empty = 0 := by
  simp [totalCount_eq_sum]

/-- A write moves the sum of the counts from the old count of its symbol to the new one. -/
theorem totalCount_set (f : Table Count) (x : Symbol) (c : Count) :
    totalCount (f.set x c) + countOf (f.get x) = totalCount f + c.toNat := by
  have hrest : (symbols.erase x).map (fun y => countOf ((f.set x c).get y)) =
      (symbols.erase x).map fun y => countOf (f.get y) :=
    List.map_congr_left fun y hy => by rw [f.get_set_of_ne c ((symbols_nodup.mem_erase_iff.mp hy).1)]
  rw [totalCount_eq_sum, totalCount_eq_sum, ← List.sum_map_erase _ (mem_symbols x), hrest,
    ← List.sum_map_erase (fun y => countOf (f.get y)) (mem_symbols x), Table.get_set_self, countOf_some]
  omega

theorem sum_count_symbols (text : List Symbol) : (symbols.map fun y => text.count y).sum = text.length := by
  have hcard : ∑ y ∈ symbols.toFinset, (text : Multiset Symbol).count y = text.length :=
    Multiset.sum_count_eq_card fun y _ => List.mem_toFinset.mpr (mem_symbols y)
  simpa only [Multiset.coe_count, List.sum_toFinset _ symbols_nodup] using hcard

/-- Where every count fits, the counts of a text sum to its length (40 R86). -/
theorem totalCount_eq_length {f : Table Count} {text : List Symbol}
    (hf : ∀ y, f.get y = addOccurrences none (text.count y)) (hfit : ∀ y, text.count y ≤ 2 ^ 32 - 1) :
    totalCount f = text.length := by
  have hcount : ∀ y, countOf (f.get y) = text.count y := fun y => by
    rw [hf y, countOf_addOccurrences, countOf_none, Nat.zero_add, Nat.min_eq_left (hfit y)]
  rw [totalCount_eq_sum, ← sum_count_symbols text]
  simp only [hcount]

/-! ### Counting as a relation of states -/

/-- The number of responses `OK`. -/
def okCount (rs : List Response) : Nat := (rs.filter fun q => q.status = .ok).length

@[simp] theorem okCount_ok : okCount [Response.plain .ok] = 1 := rfl

@[simp] theorem okCount_append (rs qs : List Response) : okCount (rs ++ qs) = okCount rs + okCount qs := by
  simp [okCount]

/-- `Counts text s t rs`: from `s` to `t` every symbol of the text was counted once and `rs` are the answers. -/
structure Counts (text : List Symbol) (s t : State) (rs : List Response) : Prop where
  freq : ∀ y, t.freq.get y = addOccurrences (s.freq.get y) (text.count y)
  len : t.len = s.len
  code : t.code = s.code
  responses : t.responses = s.responses ++ rs
  length : rs.length = text.length
  total : totalCount t.freq = totalCount s.freq + okCount rs

theorem Counts.nil (s : State) : Counts [] s s [] where
  freq _ := (addOccurrences_zero _).symm
  len := rfl
  code := rfl
  responses := (List.append_nil _).symm
  length := rfl
  total := rfl

theorem Counts.append {text text' : List Symbol} {s t u : State} {rs rs' : List Response} (h : Counts text s t rs)
    (h' : Counts text' t u rs') : Counts (text ++ text') s u (rs ++ rs') where
  freq y := by rw [h'.freq, h.freq, addOccurrences_addOccurrences, List.count_append]
  len := h'.len.trans h.len
  code := h'.code.trans h.code
  responses := by rw [h'.responses, h.responses, List.append_assoc]
  length := by rw [List.length_append, List.length_append, h.length, h'.length]
  total := by rw [h'.total, h.total, okCount_append, Nat.add_assoc]

/-- The sum of the counts grows by one with `CNT` exactly where the answer is `OK`. -/
theorem Effect.cnt_total {s u : State} {x : Symbol} {r : Response} (h : Effect s (.cnt x) u r) :
    totalCount u.freq = totalCount s.freq + okCount [r] := by
  cases h with
  | cntAbsent h => simpa [h] using totalCount_set s.freq x 1
  | @cntBelow _ c h hc =>
    have hset := totalCount_set s.freq x (c + 1)
    have hsucc : (c + 1).toNat = c.toNat + 1 := by simp only [Config.freqMax] at hc; bv_omega
    rw [h, countOf_some, hsucc] at hset
    rw [State.setFreq_freq, okCount_ok]
    omega
  | cntFull => rfl

/-! ### Runs -/

namespace State

@[simp] theorem withProgram_freq (s : State) (is : List Instr) : (s.withProgram is).freq = s.freq := rfl
@[simp] theorem withProgram_len (s : State) (is : List Instr) : (s.withProgram is).len = s.len := rfl
@[simp] theorem withProgram_code (s : State) (is : List Instr) : (s.withProgram is).code = s.code := rfl
@[simp] theorem withProgram_inputs (s : State) (is : List Instr) : (s.withProgram is).inputs = presented is := rfl
@[simp] theorem withProgram_responses (s : State) (is : List Instr) : (s.withProgram is).responses = s.responses := rfl

end State

/-- A presented command has its effect, and its response comes next. -/
theorem step_effect {s : State} {i : Instr} {rest : List HostInput} (h : s.inputs = .command (encode i) :: rest) :
    ∃ u r, Effect (s.accept rest) i u r ∧ step s = .next (u.respond r) ∧ (u.respond r).inputs = rest ∧
      (u.respond r).responses = s.responses ++ [r] := by
  obtain ⟨u, r, he, hx⟩ := exec_effect i (s.accept rest)
  obtain ⟨hin, hdel⟩ := he.sameHost
  exact ⟨u, r, he, (step_command h (decode_encode i)).trans hx, by simp [hin], by simp [State.responses, hdel]⟩

theorem step_cnt_counts {s : State} {x : Symbol} {rest : List HostInput}
    (h : s.inputs = .command (encode (.cnt x)) :: rest) :
    ∃ t r, step s = .next t ∧ t.inputs = rest ∧ Counts [x] s t [r] := by
  obtain ⟨u, r, he, hstep, hin, hresp⟩ := step_effect h
  obtain ⟨-, hlen, hcode⟩ := he.cnt_onlyFreqAt
  exact ⟨_, r, hstep, hin,
    { freq := by simpa using he.cnt_get
      len := by simp [hlen]
      code := by simp [hcode]
      responses := hresp
      length := rfl
      total := by simpa using he.cnt_total }⟩

/-- One `CNT` per symbol counts the text, by induction on the symbols still to come. -/
theorem runSteps_counts (text : List Symbol) {s : State} (h : s.inputs = presented (Pseudo.count text).expand) :
    ∃ t rs, runSteps text.length s = .next t ∧ t.inputs = [] ∧ Counts text s t rs := by
  induction text generalizing s with
  | nil => exact ⟨s, [], runSteps_zero s, h, .nil s⟩
  | cons x text ih =>
    obtain ⟨t, r, hstep, hin, hx⟩ := step_cnt_counts h
    obtain ⟨u, rs, hrun, hin', htext⟩ := ih hin
    exact ⟨u, r :: rs, (runSteps_succ _ hstep).trans hrun, hin', hx.append htext⟩

/-! ### The counts of a text -/

/-- Settles O51: `CLR 1` leaves an empty `FREQ`, and from there the run counts the text. -/
theorem countingATextCountsOccurrences : Obligations.CountingATextCountsOccurrences := by
  intro s text
  have hinputs : (s.withProgram (Pseudo.fclr.expand ++ (Pseudo.count text).expand)).inputs =
      .command (encode (.clr 1)) :: presented (Pseudo.count text).expand := rfl
  obtain ⟨u, r, he, hstep, hin, hresp⟩ := step_effect hinputs
  cases he
  obtain ⟨t, rs, hrun, hin', hc⟩ := runSteps_counts text hin
  have hfreq : ∀ y, t.freq.get y = addOccurrences none (text.count y) := hc.freq
  have htotal : totalCount t.freq = okCount rs := by simp [hc.total, maskBit]
  refine ⟨t, Response.plain .ok, rs, (runSteps_succ _ hstep).trans hrun, hin', by simp [hc.len, maskBit],
    by simp [hc.code, maskBit], ?_, hc.length, rfl, fun y => ?_, htotal, fun hfit => ?_⟩
  · rw [hc.responses, hresp, State.withProgram_responses, List.append_assoc, List.singleton_append]
  · rw [hfreq, addOccurrences, countOf_none, Nat.zero_add]
  · have hlength := totalCount_eq_length hfreq hfit
    have hok : okCount rs = rs.length := by rw [← htotal, hlength, hc.length]
    exact ⟨by simpa using List.length_filter_eq_length_iff.mp hok, hlength⟩

/-- Settles O52: what counting a text leaves depends on the number of occurrences of each symbol only. -/
theorem countingIgnoresTheOrder : Obligations.CountingIgnoresTheOrder := by
  intro s text text' hperm
  obtain ⟨t, rs, hrun, -, h⟩ := runSteps_counts text (s.withProgram_inputs _)
  obtain ⟨t', rs', hrun', -, h'⟩ := runSteps_counts text' (s.withProgram_inputs _)
  refine ⟨t, t', hrun, hrun', fun y => ?_, fun y => ?_, fun y => ?_⟩
  · simp [h.freq, h'.freq, hperm.count_eq y]
  · simp [h.len, h'.len]
  · simp [h.code, h'.code]

end Sys2Proof.Machine
end

section
/-! The lengths that are built, as the depths of the leaves of one tree: their Kraft sum is exactly 1 and their range is
1 to n - 1 (41 R112, R114, R118). -/

namespace Sys2Proof.Machine

/-! ### The depths of a tree -/

/-- A tree fills its level: the powers of two of its leaves' depths sum to that of its root (41 R114). -/
theorem HuffTree.kraft_depths {m d : Nat} (T : HuffTree) (h : d + T.height ≤ m) :
    ((T.depths d).map fun e => 2 ^ (m - e.2)).sum = 2 ^ (m - d) := by
  induction T generalizing d with
  | leaf x c => simp [depths]
  | node l r ihl ihr =>
    simp only [height] at h
    have hd : m - d = m - (d + 1) + 1 := by omega
    rw [depths, List.map_append, List.sum_append, ihl (by omega), ihr (by omega), hd, Nat.pow_succ, Nat.mul_two]

/-! ### The entries of the built table -/

/-- Writes to different symbols into an empty table are its entries. -/
theorem Table.entries_setAll_perm {α : Type} {es : List (Symbol × α)} (h : (es.map Prod.fst).Nodup) :
    (Table.empty.setAll es).entries.Perm es := by
  refine (List.perm_ext_iff_of_nodup (.of_map Prod.fst (Table.dom_nodup _)) (.of_map _ h)).mpr fun e => ?_
  rw [Table.mem_entries, Table.get_setAll_eq_some_iff h]
  simp

theorem HuffTree.emitted_keys_nodup {f : Table Count} {T : HuffTree} (hT : T.leaves.Perm f.entries) (n d : Nat) :
    ((T.emitted n d).map Prod.fst).Nodup := by
  rw [HuffTree.map_fst_emitted]
  exact (hT.map Prod.fst).nodup_iff.mpr f.dom_nodup

/-- From two symbols on a leaf's record is its depth, which fits 8 bits (41 R112, R118). -/
theorem HuffTree.emitted_toNat {T : HuffTree} {n : Nat} (hn : n ≠ 1) (h : T.height < 256) :
    (T.emitted n 0).map (fun e => (e.1, e.2.toNat)) = T.depths 0 := by
  have hdepth : ∀ e ∈ T.depths 0, (e.1, (emittedLen n (BitVec.ofNat 8 e.2)).toNat) = e := fun e he => by
    have := (depth_bounds he).2
    rw [emittedLen, if_neg hn, BitVec.toNat_ofNat, Nat.mod_eq_of_lt (by omega)]
  rw [emitted, List.map_map]
  exact (List.map_congr_left hdepth).trans (List.map_id _)

/-- For two symbols or more the tree of the table gives every symbol the depth of its leaf as length. -/
structure DepthTree (sel : Selector) (f : Table Count) (ar : Arena) (root : NodeIdx) (T : HuffTree) : Prop where
  built : buildTree sel f = (ar, [root])
  holds : ar.Holds T root
  leaves : T.leaves.Perm f.entries
  height : T.height < f.size
  lengths : ((buildLengthsWith sel f).entries.map fun e => (e.1, e.2.toNat)).Perm (T.depths 0)

theorem exists_depthTree {sel : Selector} (hsel : LegalSelector sel) {f : Table Count} (hf : 2 ≤ f.size) :
    ∃ ar root T, DepthTree sel f ar root T := by
  obtain ⟨ar, root, T, hb, hT, hleaves, hslots⟩ := buildTree_tree hsel (f := f) (by omega)
  have hlen : T.leaves.length = f.size := hleaves.length_eq
  have hheight := T.height_lt_length_leaves
  have hsize := f.size_le
  have hlens : buildLengthsWith sel f = Table.empty.setAll (T.emitted f.size 0) := by
    simp only [buildLengthsWith, hb]
    exact visit_tree f.size 0 _ hT (by omega)
  refine ⟨ar, root, T, hb, hT, hleaves, by omega, ?_⟩
  rw [hlens, ← HuffTree.emitted_toNat (n := f.size) (by omega) (by omega)]
  exact (Table.entries_setAll_perm (HuffTree.emitted_keys_nodup hleaves _ _)).map _

theorem DepthTree.mem_depths {sel : Selector} {f : Table Count} {ar : Arena} {root : NodeIdx} {T : HuffTree}
    (h : DepthTree sel f ar root T) {x : Symbol} {l : Len} (hl : (buildLengthsWith sel f).get x = some l) :
    (x, l.toNat) ∈ T.depths 0 :=
  h.lengths.mem_iff.mp (List.mem_map.mpr ⟨(x, l), (Table.mem_entries _ x l).mpr hl, rfl⟩)

theorem lenAt_of_get {t : Table Len} {x : Symbol} {l : Len} (h : t.get x = some l) : lenAt t x = l.toNat := by
  simp [lenAt, h]

theorem DepthTree.lenAt_eq {sel : Selector} {f : Table Count} {ar : Arena} {root : NodeIdx} {T : HuffTree}
    (h : DepthTree sel f ar root T) {e : Symbol × Nat} (he : e ∈ T.depths 0) :
    lenAt (buildLengthsWith sel f) e.1 = e.2 := by
  obtain ⟨⟨x, l⟩, hx, rfl⟩ := List.mem_map.mp (h.lengths.mem_iff.mpr he)
  exact lenAt_of_get ((Table.mem_entries _ x l).mp hx)

/-- The single symbol of a table gets length 1 (41 R112). -/
theorem buildLengthsWith_single {sel : Selector} (hsel : LegalSelector sel) {f : Table Count} (hf : f.size = 1) :
    ∃ x, (buildLengthsWith sel f).entries = [(x, 1)] := by
  obtain ⟨T, hT, hlen, hb⟩ := buildLengthsWith_tree hsel (f := f) (by omega)
  have hperm := Table.entries_setAll_perm (HuffTree.emitted_keys_nodup hT f.size 0)
  rw [← hb] at hperm
  cases T with
  | leaf x c => exact ⟨x, by simpa [HuffTree.emitted, HuffTree.depths, emittedLen, hf] using hperm⟩
  | node l r =>
    have := l.one_le_length_leaves
    have := r.one_le_length_leaves
    simp only [HuffTree.leaves, List.length_append] at hlen
    omega

/-! ### The Kraft sum -/

theorem kraftSum_buildLengthsWith {sel : Selector} (hsel : LegalSelector sel) {f : Table Count} (hf : 2 ≤ f.size) :
    kraftSum (buildLengthsWith sel f) = 2 ^ Config.maxLen := by
  obtain ⟨ar, root, T, h⟩ := exists_depthTree hsel hf
  have hheight := h.height
  have hsize := f.size_le
  calc kraftSum (buildLengthsWith sel f)
      = ((T.depths 0).map fun e => 2 ^ (Config.maxLen - e.2)).sum := by
        rw [← (h.lengths.map _).sum_eq, List.map_map]
        rfl
    _ = 2 ^ Config.maxLen := T.kraft_depths (by simp only [Config.maxLen]; omega)

theorem kraftSum_buildLengthsWith_single {sel : Selector} (hsel : LegalSelector sel) {f : Table Count}
    (hf : f.size = 1) : kraftSum (buildLengthsWith sel f) = 2 ^ (Config.maxLen - 1) := by
  obtain ⟨x, hx⟩ := buildLengthsWith_single hsel hf
  simp [kraftSum, hx]

/-- The built lengths satisfy the Kraft inequality, by the number of symbols: none, one, two or more (41 R114). -/
theorem kraft_buildLengthsWith {sel : Selector} (hsel : LegalSelector sel) (f : Table Count) :
    Kraft (buildLengthsWith sel f) := by
  rcases Nat.lt_or_ge f.size 2 with hlt | hge
  · rcases Nat.lt_or_ge f.size 1 with h0 | h1
    · rw [buildLengthsWith_empty sel (by omega)]
      have hsum : kraftSum (Table.empty : Table Len) = 0 := by
        simp [kraftSum, List.length_eq_zero_iff.mp (Table.size_empty (α := Len))]
      exact hsum.trans_le (Nat.zero_le _)
    · exact (kraftSum_buildLengthsWith_single hsel (by omega)).trans_le
        (Nat.pow_le_pow_right (by decide) (Nat.sub_le _ _))
  · exact (kraftSum_buildLengthsWith hsel hge).le

/-- Settles O32: every inner node splits its share of the Kraft sum between its two children. -/
theorem builtLengthsMeetKraftWithEquality : Obligations.BuiltLengthsMeetKraftWithEquality := by
  intro sel f hsel
  refine ⟨buildLengthsWith_domain hsel f, kraftSum_buildLengthsWith hsel, fun h1 => ?_,
    kraft_buildLengthsWith hsel f⟩
  rw [kraftSum_buildLengthsWith_single hsel h1, ← Nat.pow_succ']
  rfl

/-! ### The range -/

theorem buildLengthsWith_single_eq_one {sel : Selector} (hsel : LegalSelector sel) {f : Table Count} {x : Symbol}
    {l : Len} (hf : f.size = 1) (h : (buildLengthsWith sel f).get x = some l) : l = 1 := by
  obtain ⟨y, hy⟩ := buildLengthsWith_single hsel hf
  rw [← Table.mem_entries, hy, List.mem_singleton] at h
  exact (Prod.mk.inj h).2

theorem lenAt_buildLengthsWith_single_le {sel : Selector} (hsel : LegalSelector sel) {f : Table Count} (hf : f.size = 1)
    (x : Symbol) : lenAt (buildLengthsWith sel f) x ≤ 1 := by
  cases h : (buildLengthsWith sel f).get x with
  | none => simp [lenAt, h]
  | some l => rw [lenAt_of_get h, buildLengthsWith_single_eq_one hsel hf h]; exact le_rfl

/-- Settles O33: a leaf lies at least one level below the root, and no deeper than the other leaves allow. -/
theorem builtLengthsAreInRange : Obligations.BuiltLengthsAreInRange := by
  refine ⟨fun sel f x l hsel hl => ?_, by decide⟩
  have hne := buildLengthsWith_ne_zero hsel hl
  refine ⟨by bv_omega, fun hf => ?_, fun hf => buildLengthsWith_single_eq_one hsel hf hl⟩
  obtain ⟨ar, root, T, h⟩ := exists_depthTree hsel hf
  have hdepth : l.toNat ≤ 0 + T.height := (HuffTree.depth_bounds (h.mem_depths hl)).2
  have hheight := h.height
  have hsize := f.size_le
  omega

end Sys2Proof.Machine
end

section
/-! The merge loop on the arena: what a legal choice pops, and the shape of the nodes and the exact frequencies that
every merge keeps (41 R104 to R107). -/

namespace Sys2Proof.Machine

/-! ### One merge -/

/-- Popped from the pending nodes `p`: `a` of least frequency, then `b` of least frequency among those that are left,
with `q` left after both (41 R104). -/
structure Popped (ar : Arena) (p : List NodeIdx) (a b : NodeIdx) (q : List NodeIdx) : Prop where
  perm : p.Perm (a :: b :: q)
  first : ∀ i ∈ b :: q, freqOf ar a ≤ freqOf ar i
  second : ∀ i ∈ q, freqOf ar b ≤ freqOf ar i

/-- One merge by a legal choice. -/
theorem exists_popped {sel : Selector} (hsel : LegalSelector sel) {ar : Arena} {p : List NodeIdx} (hp : 1 < p.length) :
    ∃ q, Popped ar p (sel ar p) (sel ar (p.erase (sel ar p))) q ∧
      mergeOnce sel ar p =
        (ar.push (mergeNode ar (sel ar p) (sel ar (p.erase (sel ar p)))), q ++ [ar.next]) := by
  have ha := hsel ar p (List.ne_nil_of_length_pos (by omega))
  have hlen := List.length_erase_of_mem ha.1
  have hb := hsel ar (p.erase (sel ar p)) (List.ne_nil_of_length_pos (by omega))
  have hperm := perm_popped hsel (ar := ar) hp
  refine ⟨_, ⟨hperm, fun i hi => ha.2 i ?_, fun i hi => hb.2 i (List.mem_of_mem_erase hi)⟩, rfl⟩
  exact hperm.mem_iff.mpr (List.mem_cons_of_mem _ hi)

/-- What every merge of more than one pending node keeps holds when the loop ends. -/
theorem mergeLoop_induction {sel : Selector} {P : Arena → List NodeIdx → Prop}
    (hstep : ∀ ar p, 1 < p.length → P ar p → P (mergeOnce sel ar p).1 (mergeOnce sel ar p).2) (k : Nat) {ar : Arena}
    {p : List NodeIdx} (h : P ar p) : P (mergeLoop sel k ar p).1 (mergeLoop sel k ar p).2 := by
  induction k generalizing ar p with
  | zero => exact h
  | succ k ih =>
    rcases Nat.lt_or_ge 1 p.length with hp | hp
    · rw [mergeLoop_step hp]
      exact ih (hstep ar p hp h)
    · rwa [mergeLoop_done hp]

/-! ### Frequencies -/

theorem freqOf_of_slot {ar : Arena} {i : NodeIdx} {nd : Node} (h : ar.slot i = some nd) :
    freqOf ar i = nd.frequency := by
  simp [freqOf, h]

theorem freqOf_push_below {ar : Arena} {i : NodeIdx} (nd : Node) (h : i.toNat < ar.nodes.length) :
    freqOf (ar.push nd) i = freqOf ar i := by
  simp only [freqOf, Arena.slot_push_below nd h]

/-- The sum of the frequencies of a list of nodes, as a number. -/
def freqSum (ar : Arena) (p : List NodeIdx) : Nat := (p.map fun i => (freqOf ar i).toNat).sum

@[simp] theorem freqSum_cons (ar : Arena) (i : NodeIdx) (p : List NodeIdx) :
    freqSum ar (i :: p) = (freqOf ar i).toNat + freqSum ar p := by
  simp [freqSum]

@[simp] theorem nodeFreqOfCount_toNat (c : Count) : (nodeFreqOfCount c).toNat = c.toNat := by
  rw [nodeFreqOfCount, BitVec.toNat_setWidth]
  exact Nat.mod_eq_of_lt (by omega)

/-- At the start the pending frequencies are the counts, entry by entry (41 R102, R103, R106). -/
theorem initialPending_freqs (f : Table Count) :
    ((initialPending f.size).map fun i => (freqOf (leaves f) i).toNat) = f.entries.map fun e => e.2.toNat := by
  refine List.ext_getElem (by simp [Table.size]) fun k hk _ => ?_
  have hsize := f.size_le
  have hk' : k < f.entries.length := by simpa [Table.size] using hk
  have hmod : k % 512 = k := Nat.mod_eq_of_lt (by simp only [Table.size] at hsize; omega)
  have hslot : (leaves f).slot (BitVec.ofNat 9 k) = some (.leaf f.entries[k].1 (nodeFreqOfCount f.entries[k].2)) := by
    simp [Arena.slot, leafNodes, hmod, hk']
  simp [initialPending, freqOf_of_slot hslot, Node.frequency]

/-- The sum of the counts fits a node's frequency (41 R106). -/
theorem totalCount_lt (f : Table Count) : totalCount f < 2 ^ 40 := by
  have hcount : ∀ n ∈ f.entries.map fun e => e.2.toNat, n ≤ 2 ^ 32 - 1 := by
    simp only [List.mem_map]
    rintro n ⟨e, -, rfl⟩
    exact Nat.le_sub_one_of_lt e.2.isLt
  have hsum := List.sum_le_card_nsmul _ _ hcount
  have hsize := f.size_le
  simp only [List.length_map, smul_eq_mul, Table.size] at hsum hsize
  simp only [totalCount]
  omega

/-! ### What the loop keeps -/

/-- The children of a node. -/
def Node.children : Node → List NodeIdx
  | .leaf _ _ => []
  | .inner _ a b => [a, b]

/-- In slot `k` stands an inner node over two lower slots, of exactly the sum of their frequencies (41 R104, R106). -/
def Node.Joins (ar : Arena) (k : Nat) (nd : Node) : Prop :=
  ∃ fr a b, nd = .inner fr a b ∧ a.toNat < k ∧ b.toNat < k ∧ fr.toNat = (freqOf ar a).toNat + (freqOf ar b).toNat

/-- What every merge keeps: the leaves of the table stand in the first slots, inner nodes over lower slots in the
others; every node is a child once or is pending once; the pending frequencies sum to the counts (41 R104 to R107). -/
structure Merging (f : Table Count) (ar : Arena) (p : List NodeIdx) : Prop where
  slots : ar.nodes.length + p.length = 2 * f.size
  leaves : leafNodes f <+: ar.nodes
  joins : ∀ k nd, f.size ≤ k → ar.nodes[k]? = some nd → nd.Joins ar k
  once : ((ar.nodes.flatMap Node.children ++ p).map BitVec.toNat).Perm (List.range ar.nodes.length)
  total : freqSum ar p = totalCount f

theorem initial_merging (f : Table Count) : Merging f (leaves f) (initialPending f.size) where
  slots := by rw [leaves_length, initialPending_length]; omega
  leaves := List.prefix_rfl
  joins := fun k nd hk hnd => by
    have := (List.getElem?_eq_some_iff.mp hnd).1
    rw [leaves_length] at this
    omega
  once := by
    have hchildren : (leafNodes f).flatMap Node.children = [] := by
      simp [leafNodes, List.flatMap_map, Node.children]
    have hindices : (initialPending f.size).map BitVec.toNat = List.range f.size := by
      rw [initialPending, List.map_map]
      refine (List.map_congr_left fun k hk => ?_).trans (List.map_id _)
      have hsize := f.size_le
      have hk := List.mem_range.mp hk
      exact Nat.mod_eq_of_lt (by omega)
    rw [leaves_length, leaves_nodes, hchildren, List.nil_append, hindices]
  total := congrArg List.sum (initialPending_freqs f)

namespace Merging

variable {f : Table Count} {ar : Arena} {p q : List NodeIdx} {a b : NodeIdx}

theorem pending_below (h : Merging f ar p) {i : NodeIdx} (hi : i ∈ p) : i.toNat < ar.nodes.length := by
  have hmem : i.toNat ∈ (ar.nodes.flatMap Node.children ++ p).map BitVec.toNat :=
    List.mem_map_of_mem (List.mem_append_right _ hi)
  exact List.mem_range.mp (h.once.mem_iff.mp hmem)

theorem room (h : Merging f ar p) (hp : 1 < p.length) : ar.nodes.length < Config.arenaSize := by
  have hslots := h.slots
  have hsize := f.size_le
  simp only [Config.arenaSize]
  omega

theorem total_popped (h : Merging f ar p) (hpop : Popped ar p a b q) :
    (freqOf ar a).toNat + (freqOf ar b).toNat + freqSum ar q = totalCount f := by
  have hperm : freqSum ar p = freqSum ar (a :: b :: q) := (hpop.perm.map _).sum_eq
  rw [← h.total, hperm, freqSum_cons, freqSum_cons, Nat.add_assoc]

/-- The sum of the two popped frequencies does not overflow (41 R106). -/
theorem add_exact (h : Merging f ar p) (hpop : Popped ar p a b q) :
    (freqOf ar a + freqOf ar b).toNat = (freqOf ar a).toNat + (freqOf ar b).toNat := by
  have htotal := h.total_popped hpop
  have hlt := totalCount_lt f
  rw [BitVec.toNat_add]
  exact Nat.mod_eq_of_lt (by omega)

theorem popped_below (h : Merging f ar p) (hpop : Popped ar p a b q) {i : NodeIdx} (hi : i ∈ a :: b :: q) :
    i.toNat < ar.nodes.length := h.pending_below (hpop.perm.mem_iff.mpr hi)

/-- After the merge the new node is pending beside the nodes left, with the sum of the frequencies popped. -/
theorem freqs_push (h : Merging f ar p) (hpop : Popped ar p a b q) (hp : 1 < p.length) :
    ((q ++ [ar.next]).map fun i => (freqOf (ar.push (mergeNode ar a b)) i).toNat) =
      (q.map fun i => (freqOf ar i).toNat) ++ [(freqOf ar a).toNat + (freqOf ar b).toNat] := by
  have hold : ∀ i ∈ q, (freqOf (ar.push (mergeNode ar a b)) i).toNat = (freqOf ar i).toNat := fun i hi => by
    rw [freqOf_push_below _ (h.popped_below hpop (by simp [hi]))]
  have hnew : freqOf (ar.push (mergeNode ar a b)) ar.next = freqOf ar a + freqOf ar b :=
    freqOf_of_slot (Arena.slot_push_next _ (h.room hp))
  rw [List.map_append, List.map_congr_left hold, List.map_singleton, hnew, h.add_exact hpop]

/-- An inner node keeps its place and its exact frequency when the next slot is written. -/
theorem joins_push {k : Nat} {nd : Node} (hk : k ≤ ar.nodes.length) (h : nd.Joins ar k) (new : Node) :
    nd.Joins (ar.push new) k := by
  obtain ⟨fr, a, b, hnd, ha, hb, hfr⟩ := h
  exact ⟨fr, a, b, hnd, ha, hb, by
    rw [freqOf_push_below _ (ha.trans_le hk), freqOf_push_below _ (hb.trans_le hk), hfr]⟩

theorem merge (h : Merging f ar p) (hpop : Popped ar p a b q) (hp : 1 < p.length) :
    Merging f (ar.push (mergeNode ar a b)) (q ++ [ar.next]) := by
  have hnodes := Arena.push_nodes (mergeNode ar a b) (h.room hp)
  constructor
  case slots =>
    have hslots := h.slots
    have hlen := hpop.perm.length_eq
    simp only [List.length_cons] at hlen
    simp only [hnodes, List.length_append, List.length_singleton]
    omega
  case leaves => exact hnodes ▸ h.leaves.trans (List.prefix_append _ _)
  case joins =>
    intro k nd hk hnd
    rw [hnodes] at hnd
    rcases Nat.lt_trichotomy k ar.nodes.length with hlt | rfl | hgt
    · rw [List.getElem?_append_left hlt] at hnd
      exact joins_push hlt.le (h.joins k nd hk hnd) _
    · rw [List.getElem?_concat_length] at hnd
      cases hnd
      refine joins_push le_rfl ⟨_, a, b, rfl, ?_, ?_, h.add_exact hpop⟩ _
      · exact h.popped_below hpop (by simp)
      · exact h.popped_below hpop (by simp)
    · rw [List.getElem?_eq_none (by simpa using hgt)] at hnd
      cases hnd
  case once =>
    have hmove : ((ar.nodes ++ [mergeNode ar a b]).flatMap Node.children ++ (q ++ [ar.next])).Perm
        (ar.nodes.flatMap Node.children ++ p ++ [ar.next]) := by
      simpa [mergeNode, Node.children] using
        ((hpop.perm.symm.append_right [ar.next]).append_left (ar.nodes.flatMap Node.children))
    rw [hnodes, List.length_append, List.length_singleton, List.range_succ]
    refine (hmove.map _).trans ?_
    rw [List.map_append, List.map_singleton, Arena.next_toNat]
    exact h.once.append_right _
  case total =>
    rw [freqSum, h.freqs_push hpop hp, List.sum_append, List.sum_singleton, ← h.total_popped hpop, freqSum]
    omega

end Merging

theorem Merging.mergeOnce {sel : Selector} (hsel : LegalSelector sel) {f : Table Count} {ar : Arena} {p : List NodeIdx}
    (h : Merging f ar p) (hp : 1 < p.length) : Merging f (mergeOnce sel ar p).1 (mergeOnce sel ar p).2 := by
  obtain ⟨q, hpop, hmerge⟩ := exists_popped hsel (ar := ar) hp
  rw [hmerge]
  exact h.merge hpop hp

/-! ### The tree that is built -/

/-- What holds of the leaves and is kept by every merge holds when the tree is built. -/
theorem buildTree_induction {sel : Selector} (hsel : LegalSelector sel) {f : Table Count}
    {P : Arena → List NodeIdx → Prop} (h0 : P (leaves f) (initialPending f.size))
    (hstep : ∀ ar p, Merging f ar p → 1 < p.length → P ar p → P (mergeOnce sel ar p).1 (mergeOnce sel ar p).2)
    {ar : Arena} {p : List NodeIdx} (hb : buildTree sel f = (ar, p)) : Merging f ar p ∧ P ar p := by
  have hend := mergeLoop_induction (sel := sel) (P := fun ar p => Merging f ar p ∧ P ar p)
    (fun ar p hp h => ⟨h.1.mergeOnce hsel hp, hstep ar p h.1 hp h.2⟩) f.size ⟨initial_merging f, h0⟩
  rw [← buildTree, hb] at hend
  exact hend

theorem buildTree_merging {sel : Selector} (hsel : LegalSelector sel) {f : Table Count} {ar : Arena} {p : List NodeIdx}
    (hb : buildTree sel f = (ar, p)) : Merging f ar p :=
  (buildTree_induction hsel (P := fun _ _ => True) trivial (fun _ _ _ _ _ => trivial) hb).1

end Sys2Proof.Machine
end

section
/-! The arena when the merge loop ends: the leaves in symbol order, the inner nodes, the one root, and the parent of
every other node (41 R102, R106, R107, R110). -/

namespace Sys2Proof.Machine

/-! ### Leaves -/

theorem getElem?_leafNodes_eq_some_iff {f : Table Count} {k : Nat} {nd : Node} :
    (leafNodes f)[k]? = some nd ↔ ∃ e, f.entries[k]? = some e ∧ .leaf e.1 (nodeFreqOfCount e.2) = nd := by
  rw [leafNodes, List.getElem?_map, Option.map_eq_some_iff]

/-- A leaf holds an entry of the table. -/
theorem leafNodes_entry {f : Table Count} {k : Nat} {nd : Node} (h : (leafNodes f)[k]? = some nd) :
    ∃ x c, nd = .leaf x (nodeFreqOfCount c) ∧ f.get x = some c := by
  obtain ⟨⟨x, c⟩, he, rfl⟩ := getElem?_leafNodes_eq_some_iff.mp h
  exact ⟨x, c, rfl, (f.mem_entries x c).mp (List.mem_of_getElem? he)⟩

/-- The symbols of the leaves ascend with the slots (41 R102). -/
theorem leafNodes_ascending {f : Table Count} {j k : Nat} {x y : Symbol} {fx fy : NodeFreq} (hjk : j < k)
    (hx : (leafNodes f)[j]? = some (.leaf x fx)) (hy : (leafNodes f)[k]? = some (.leaf y fy)) : x < y := by
  obtain ⟨e, he, hex⟩ := getElem?_leafNodes_eq_some_iff.mp hx
  obtain ⟨e', he', hey⟩ := getElem?_leafNodes_eq_some_iff.mp hy
  cases hex
  cases hey
  obtain ⟨hj, rfl⟩ := List.getElem?_eq_some_iff.mp he
  obtain ⟨hk, rfl⟩ := List.getElem?_eq_some_iff.mp he'
  exact List.pairwise_iff_getElem.mp f.entries_pairwise j k hj hk hjk

/-- Settles O27: the leaves are the entries, mapped one by one. -/
theorem leavesAreTheEntriesInSymbolOrder : Obligations.LeavesAreTheEntriesInSymbolOrder := by
  refine fun f => ⟨leaves_length f, fun k nd hk => ?_, fun x c hx => ?_, fun j k x y fx fy => leafNodes_ascending⟩
  · obtain ⟨x, c, rfl, hc⟩ := leafNodes_entry hk
    exact ⟨x, c, _, rfl, hc, nodeFreqOfCount_toNat c⟩
  · obtain ⟨k, hk⟩ := List.mem_iff_getElem?.mp ((f.mem_entries x c).mpr hx)
    exact ⟨k, _, getElem?_leafNodes_eq_some_iff.mpr ⟨_, hk, rfl⟩⟩

/-! ### Slots -/

namespace Merging

variable {f : Table Count} {ar : Arena} {p : List NodeIdx} {k : Nat}

theorem slot_leaf (h : Merging f ar p) (hk : k < f.size) : ar.nodes[k]? = (leafNodes f)[k]? := by
  obtain ⟨rest, hnodes⟩ := h.leaves
  rw [← hnodes, List.getElem?_append_left]
  rwa [← leaves_nodes, leaves_length]

/-- A node is a leaf of an entry, or joins two lower slots. -/
theorem node_cases (h : Merging f ar p) {nd : Node} (hnd : ar.nodes[k]? = some nd) :
    (∃ x c, nd = .leaf x (nodeFreqOfCount c) ∧ f.get x = some c) ∨ nd.Joins ar k := by
  rcases Nat.lt_or_ge k f.size with hlt | hge
  · exact .inl (leafNodes_entry (h.slot_leaf hlt ▸ hnd))
  · exact .inr (h.joins k nd hge hnd)

theorem inner_joins (h : Merging f ar p) {fr : NodeFreq} {a b : NodeIdx} (hnd : ar.nodes[k]? = some (.inner fr a b)) :
    a.toNat < k ∧ b.toNat < k ∧ fr.toNat = (freqOf ar a).toNat + (freqOf ar b).toNat := by
  obtain ⟨x, c, he, -⟩ | ⟨fr, a, b, he, hjoins⟩ := h.node_cases hnd <;> cases he
  exact hjoins

/-! ### Parents -/

/-- Slot `k` is a parent of slot `i`. -/
def Parent (ar : Arena) (i k : Nat) : Prop := ∃ nd, ar.nodes[k]? = some nd ∧ i ∈ nd.children.map BitVec.toNat

theorem parent_iff {i : Nat} :
    Parent ar i k ↔ ∃ fr a b, ar.nodes[k]? = some (.inner fr a b) ∧ (a.toNat = i ∨ b.toNat = i) := by
  constructor
  · rintro ⟨nd, hnd, hi⟩
    cases nd with
    | leaf x fr => simp [Node.children] at hi
    | inner fr a b => exact ⟨fr, a, b, hnd, by simpa [Node.children, eq_comm] using hi⟩
  · rintro ⟨fr, a, b, hnd, hi⟩
    exact ⟨_, hnd, by simpa [Node.children, eq_comm] using hi⟩

theorem map_children (ar : Arena) :
    (ar.nodes.flatMap Node.children).map BitVec.toNat = ar.nodes.flatMap fun nd => nd.children.map BitVec.toNat :=
  List.map_flatMap

theorem children_nodup (h : Merging f ar p) : (ar.nodes.flatMap fun nd => nd.children.map BitVec.toNat).Nodup := by
  have hnodup := h.once.nodup_iff.mpr List.nodup_range
  rw [List.map_append, map_children] at hnodup
  exact hnodup.of_append_left

theorem children_ne (h : Merging f ar p) {fr : NodeFreq} {a b : NodeIdx} (hnd : ar.nodes[k]? = some (.inner fr a b)) :
    a ≠ b := by
  have hnode := (List.nodup_flatMap.mp h.children_nodup).1 _ (List.mem_of_getElem? hnd)
  rintro rfl
  simp [Node.children] at hnode

theorem parent_unique (h : Merging f ar p) {i j k : Nat} (hj : Parent ar i j) (hk : Parent ar i k) : ¬ j < k := by
  intro hjk
  obtain ⟨nd, hnd, hi⟩ := hj
  obtain ⟨nd', hnd', hi'⟩ := hk
  obtain ⟨hj, rfl⟩ := List.getElem?_eq_some_iff.mp hnd
  obtain ⟨hk, rfl⟩ := List.getElem?_eq_some_iff.mp hnd'
  exact List.pairwise_iff_getElem.mp (List.nodup_flatMap.mp h.children_nodup).2 j k hj hk hjk hi hi'

/-- A node is pending or has a parent. -/
theorem pending_or_parent (h : Merging f ar p) {i : Nat} (hi : i < ar.nodes.length) :
    (∃ j ∈ p, j.toNat = i) ∨ ∃ k, Parent ar i k := by
  have hmem := h.once.mem_iff.mpr (List.mem_range.mpr hi)
  rw [List.map_append, map_children, List.mem_append] at hmem
  rcases hmem with hchild | hpending
  · obtain ⟨nd, hnd, hi⟩ := List.mem_flatMap.mp hchild
    obtain ⟨k, hk⟩ := List.mem_iff_getElem?.mp hnd
    exact .inr ⟨k, nd, hk, hi⟩
  · exact .inl (List.mem_map.mp hpending)

/-- Every node that is not pending has exactly one parent (41 R110). -/
theorem existsUnique_parent (h : Merging f ar p) {i : Nat} (hi : i < ar.nodes.length) (hp : ∀ j ∈ p, j.toNat ≠ i) :
    ∃! k, Parent ar i k := by
  rcases h.pending_or_parent hi with ⟨j, hj, hji⟩ | ⟨k, hk⟩
  · exact absurd hji (hp j hj)
  · refine ⟨k, hk, fun j hj => ?_⟩
    have hjk := h.parent_unique hj hk
    have hkj := h.parent_unique hk hj
    omega

/-- The last node written is pending: a parent would stand above it (41 R107). -/
theorem last_pending (h : Merging f ar p) (hne : 0 < ar.nodes.length) : ∃ j ∈ p, j.toNat = ar.nodes.length - 1 := by
  refine (h.pending_or_parent (Nat.sub_one_lt_of_lt hne)).resolve_right ?_
  rintro ⟨k, hk⟩
  obtain ⟨fr, a, b, hnd, hi⟩ := parent_iff.mp hk
  have hlt := (List.getElem?_eq_some_iff.mp hnd).1
  obtain ⟨ha, hb, -⟩ := h.inner_joins hnd
  omega

end Merging

/-! ### The end of the loop -/

/-- Settles O29: each merge moves its two nodes from the pending ones to the children of a new one. -/
theorem mergeLoopLeavesOneRoot : Obligations.MergeLoopLeavesOneRoot := by
  intro sel hsel
  refine ⟨fun ar p hp => mergeOnce_pending_length hsel hp, ?_⟩
  rintro f _ rfl hf
  obtain ⟨ar, root, T, hb, -, -, hslots⟩ := buildTree_tree hsel (f := f) (by omega)
  have h := buildTree_merging hsel hb
  obtain ⟨j, hj, hroot⟩ := h.last_pending (by omega)
  obtain rfl := List.mem_singleton.mp hj
  refine ⟨ar, j, hb, by omega, by omega, ar.fits, ?_, fun k hk hlt => ?_, fun i hi => ?_⟩
  · rw [← leaves_length f, leaves_nodes]
    exact (List.prefix_iff_eq_take.mp h.leaves).symm
  · have hget := List.getElem?_eq_getElem (l := ar.nodes) (i := k) (by omega)
    obtain ⟨fr, a, b, hnd, ha, hb, -⟩ := h.joins k _ hk hget
    rw [hnd] at hget
    exact ⟨fr, a, b, hget, ha, hb, h.children_ne hget⟩
  · simp only [← Merging.parent_iff]
    exact h.existsUnique_parent (by omega) (by simp only [List.mem_singleton, forall_eq]; omega)

/-- The root's frequency is the sum of the counts; without an entry both are 0 (41 R106). -/
theorem freqOf_rootOf {sel : Selector} (hsel : LegalSelector sel) {f : Table Count} {ar : Arena} {p : List NodeIdx}
    (hb : buildTree sel f = (ar, p)) : (freqOf ar (rootOf (ar, p))).toNat = totalCount f := by
  have h := buildTree_merging hsel hb
  by_cases hf : f.size = 0
  · have hslots := h.slots
    have hnodes : ar.nodes = [] := List.length_eq_zero_iff.mp (by omega)
    obtain rfl : p = [] := List.length_eq_zero_iff.mp (by omega)
    rw [← h.total]
    simp [freqOf, Arena.slot, hnodes, freqSum]
  · obtain ⟨ar', root, T, hb', -⟩ := buildTree_tree hsel hf
    obtain ⟨rfl, rfl⟩ := Prod.mk.inj (hb.symm.trans hb')
    rw [← h.total]
    simp [rootOf, freqSum]

/-- Settles O30: the pending frequencies sum to the counts, so no sum of two of them overflows. -/
theorem frequencySumsAreExact : Obligations.FrequencySumsAreExact := by
  intro sel f ar p hsel hb
  have h := buildTree_merging hsel hb
  refine ⟨fun k x fr hnd => ?_, fun k fr a b hnd => (h.inner_joins hnd).2.2, freqOf_rootOf hsel hb, totalCount_lt f⟩
  obtain ⟨y, c, he, hc⟩ | ⟨fr, a, b, he, -⟩ := h.node_cases hnd <;> cases he
  exact ⟨c, hc, nodeFreqOfCount_toNat c⟩

end Sys2Proof.Machine
end

section
/-! Minimal weighted length as a fact about numbers: among the assignments of lengths to a multiset of weights that
satisfy the Kraft inequality, joining the two least weights costs no more than their sum (41 R115). -/

namespace Sys2Proof.Machine

/-! ### Weighted lengths -/

/-- An assignment of lengths to weights, as pairs of weight and length. -/
abbrev WeightLengths := Multiset (ℕ × ℕ)

namespace WeightLengths

/-- The weighted length. -/
def cost (ps : WeightLengths) : ℕ := (ps.map fun e => e.1 * e.2).sum

/-- The Kraft sum in exact rationals. -/
def kraft (ps : WeightLengths) : ℚ := (ps.map fun e => (1 / 2 : ℚ) ^ e.2).sum

@[simp] theorem cost_cons (w l : ℕ) (ps : WeightLengths) : cost ((w, l) ::ₘ ps) = w * l + cost ps := by
  simp [cost]

@[simp] theorem kraft_cons (w l : ℕ) (ps : WeightLengths) : kraft ((w, l) ::ₘ ps) = (1 / 2) ^ l + kraft ps := by
  simp [kraft]

/-! ### Exchanging lengths -/

/-- A weight that none is below can take the greatest length: the pairs with the greater lengths pass theirs on, and the
weighted length does not grow. -/
theorem exists_longest {a : ℕ} (x : ℕ) {ps : WeightLengths} (ha : ∀ e ∈ ps, a ≤ e.1) :
    ∃ (y : ℕ) (qs : WeightLengths), qs.map Prod.fst = ps.map Prod.fst ∧
      y ::ₘ qs.map Prod.snd = x ::ₘ ps.map Prod.snd ∧ (∀ e ∈ qs, e.2 ≤ y) ∧
      cost ((a, y) ::ₘ qs) ≤ cost ((a, x) ::ₘ ps) := by
  induction ps using Multiset.induction_on with
  | empty => exact ⟨x, 0, rfl, rfl, by simp, le_rfl⟩
  | cons e ps ih =>
    obtain ⟨w, l⟩ := e
    obtain ⟨hw, hps⟩ := Multiset.forall_mem_cons.mp ha
    obtain ⟨y, qs, hfst, hsnd, hle, hcost⟩ := ih hps
    simp only [cost_cons] at hcost
    rcases le_total l y with hly | hyl
    · refine ⟨y, (w, l) ::ₘ qs, by simp [hfst], ?_, Multiset.forall_mem_cons.mpr ⟨hly, hle⟩, ?_⟩
      · rw [Multiset.map_cons, Multiset.map_cons, Multiset.cons_swap, hsnd, Multiset.cons_swap]
      · simp only [cost_cons]; omega
    · refine ⟨l, (w, y) ::ₘ qs, by simp [hfst], ?_,
        Multiset.forall_mem_cons.mpr ⟨hyl, fun q hq => (hle q hq).trans hyl⟩, ?_⟩
      · rw [Multiset.map_cons, Multiset.map_cons, hsnd, Multiset.cons_swap]
      · simp only [cost_cons]
        have hexchange : a * l + w * y ≤ a * y + w * l := by nlinarith
        omega

/-- The Kraft sum is one of the lengths alone. -/
theorem kraft_congr {ps qs : WeightLengths} (h : ps.map Prod.snd = qs.map Prod.snd) : kraft ps = kraft qs := by
  have hsum : ∀ rs : WeightLengths, kraft rs = ((rs.map Prod.snd).map fun l => (1 / 2 : ℚ) ^ l).sum := fun rs => by
    rw [Multiset.map_map]
    rfl
  rw [hsum, hsum, h]

/-! ### Joining the two least weights -/

/-- Of lengths of at most `y` the Kraft sum is a whole number of units of `y`. -/
theorem exists_kraft_units {ps : WeightLengths} {y : ℕ} (h : ∀ e ∈ ps, e.2 ≤ y) : ∃ k : ℕ, kraft ps * 2 ^ y = k := by
  induction ps using Multiset.induction_on with
  | empty => exact ⟨0, by simp [kraft]⟩
  | cons e ps ih =>
    obtain ⟨w, l⟩ := e
    obtain ⟨hl, hps⟩ := Multiset.forall_mem_cons.mp h
    obtain ⟨k, hk⟩ := ih hps
    obtain ⟨d, rfl⟩ := Nat.exists_eq_add_of_le hl
    refine ⟨2 ^ d + k, ?_⟩
    rw [kraft_cons, add_mul, hk, pow_add, ← mul_assoc, ← mul_pow]
    norm_num

/-- Where a length stands alone above all others there is room for it at the next one: a sum of units of `y` that leaves
something of 1 leaves a unit. -/
theorem kraft_level {ps : WeightLengths} {x y : ℕ} (h : ∀ e ∈ ps, e.2 ≤ y)
    (hk : (1 / 2 : ℚ) ^ x + ((1 / 2) ^ y + kraft ps) ≤ 1) :
    1 ≤ y ∧ (1 / 2 : ℚ) ^ (y - 1) + kraft ps ≤ 1 := by
  obtain ⟨k, hunits⟩ := exists_kraft_units h
  have hpos : (0 : ℚ) < (1 / 2) ^ x := by positivity
  have hunit : ((1 / 2 : ℚ) ^ y) * 2 ^ y = 1 := by rw [← mul_pow]; norm_num
  have hlt : ((1 + k : ℕ) : ℚ) < (2 ^ y : ℕ) := by
    push_cast
    rw [← hunits, ← hunit, ← add_mul]
    exact mul_lt_of_lt_one_left (by positivity) (by linarith)
  have hle : 2 + k ≤ 2 ^ y := by have := Nat.cast_lt.mp hlt; omega
  obtain ⟨z, rfl⟩ : ∃ z, y = z + 1 := Nat.exists_eq_succ_of_ne_zero (by rintro rfl; omega)
  refine ⟨by omega, le_of_mul_le_mul_right ?_ (by positivity : (0 : ℚ) < 2 ^ (z + 1))⟩
  have htwo : (1 / 2 : ℚ) ^ z * 2 ^ (z + 1) = 2 := by rw [pow_succ, ← mul_assoc, ← mul_pow]; norm_num
  rw [Nat.add_sub_cancel, add_mul, hunits, htwo, one_mul]
  exact_mod_cast hle

theorem exists_eq_cons {ps : WeightLengths} {w : ℕ} {ws : Multiset ℕ} (h : ps.map Prod.fst = w ::ₘ ws) :
    ∃ l qs, ps = (w, l) ::ₘ qs ∧ qs.map Prod.fst = ws := by
  obtain ⟨⟨_, l⟩, hmem, rfl, hrest⟩ := (Multiset.map_eq_cons _ _ _ _).mpr h
  exact ⟨l, ps.erase _, (Multiset.cons_erase hmem).symm, hrest⟩

/-- The two least weights can take the two greatest lengths. -/
theorem exists_two_longest {ps : WeightLengths} {a b : ℕ} {ws : Multiset ℕ} (hps : ps.map Prod.fst = a ::ₘ b ::ₘ ws)
    (ha : ∀ w ∈ b ::ₘ ws, a ≤ w) (hb : ∀ w ∈ ws, b ≤ w) :
    ∃ (x y : ℕ) (qs : WeightLengths), qs.map Prod.fst = ws ∧ kraft ((a, x) ::ₘ (b, y) ::ₘ qs) = kraft ps ∧ y ≤ x ∧
      (∀ e ∈ qs, e.2 ≤ y) ∧ cost ((a, x) ::ₘ (b, y) ::ₘ qs) ≤ cost ps := by
  have least : ∀ {w : ℕ} {us : Multiset ℕ} {rs : WeightLengths}, (∀ v ∈ us, w ≤ v) → rs.map Prod.fst = us →
      ∀ e ∈ rs, w ≤ e.1 := fun hw hus e he => hw _ (hus ▸ Multiset.mem_map_of_mem Prod.fst he)
  obtain ⟨x₀, ps, rfl, hfst⟩ := exists_eq_cons hps
  obtain ⟨x, rs, hrs, hsnd, hx, hcost⟩ := exists_longest x₀ (least ha hfst)
  obtain ⟨y₀, rs, rfl, hfst'⟩ := exists_eq_cons (hrs.trans hfst)
  obtain ⟨y, qs, hqs, hsnd', hy, hcost'⟩ := exists_longest y₀ (least hb hfst')
  have hyx : y ≤ x := by
    have hmem : y ∈ ((b, y₀) ::ₘ rs).map Prod.snd := by
      rw [Multiset.map_cons, ← hsnd']
      exact Multiset.mem_cons_self _ _
    obtain ⟨e, he, rfl⟩ := Multiset.mem_map.mp hmem
    exact hx e he
  refine ⟨x, y, qs, hqs.trans hfst', kraft_congr ?_, hyx, hy, ?_⟩
  · simp only [Multiset.map_cons] at hsnd hsnd' ⊢
    rw [hsnd', hsnd]
  · simp only [cost_cons] at hcost hcost' ⊢
    omega

/-- The two least weights can be joined into their sum, which saves the sum and keeps the Kraft inequality. -/
theorem exists_joined {ps : WeightLengths} {a b : ℕ} {ws : Multiset ℕ} (hps : ps.map Prod.fst = a ::ₘ b ::ₘ ws)
    (ha : ∀ w ∈ b ::ₘ ws, a ≤ w) (hb : ∀ w ∈ ws, b ≤ w) (hk : kraft ps ≤ 1) :
    ∃ qs : WeightLengths, qs.map Prod.fst = (a + b) ::ₘ ws ∧ kraft qs ≤ 1 ∧ cost qs + (a + b) ≤ cost ps := by
  obtain ⟨x, y, qs, hfst, hkraft, hyx, hy, hcost⟩ := exists_two_longest hps ha hb
  rw [← hkraft, kraft_cons, kraft_cons] at hk
  obtain ⟨hpos, hlevel⟩ := kraft_level hy hk
  refine ⟨(a + b, y - 1) ::ₘ qs, by rw [Multiset.map_cons, hfst], by rwa [kraft_cons], le_trans ?_ hcost⟩
  have hsum : (a + b) * (y - 1) + (a + b) = a * y + b * y := by
    rw [← Nat.mul_succ, Nat.succ_eq_add_one, Nat.sub_add_cancel hpos, Nat.add_mul]
  have hax : a * y ≤ a * x := Nat.mul_le_mul_left a hyx
  simp only [cost_cons]
  omega

end WeightLengths

end Sys2Proof.Machine
end

section
/-! The weighted length of the built lengths is the sum of the frequencies of the inner nodes, and no lengths that
satisfy the Kraft inequality have a smaller one, for every legal choice (41 R108, R115). -/

namespace Sys2Proof.Machine

/-! ### The sums over a tree -/

namespace HuffTree

/-- The sum of the counts of the leaves. -/
def weight : HuffTree → Nat
  | leaf _ c => c.toNat
  | node l r => l.weight + r.weight

/-- The sum of the weights of the inner nodes. -/
def innerSum : HuffTree → Nat
  | leaf _ _ => 0
  | node l r => l.innerSum + r.innerSum + (l.weight + r.weight)

/-- A leaf's count counts once in every inner node above it (41 R115). -/
theorem weighted_depths (T : HuffTree) {len : Symbol → Nat} {d : Nat} (h : ∀ e ∈ T.depths d, len e.1 = e.2) :
    (T.leaves.map fun e => e.2.toNat * len e.1).sum = T.innerSum + T.weight * d := by
  induction T generalizing d with
  | leaf x c =>
    have hx : len x = d := h (x, d) (by simp [depths])
    simp [leaves, innerSum, weight, hx]
  | node l r ihl ihr =>
    rw [leaves, List.map_append, List.sum_append, ihl fun e he => h e (List.mem_append_left _ he),
      ihr fun e he => h e (List.mem_append_right _ he)]
    simp only [innerSum, weight]
    ring

end HuffTree

/-! ### The sums over the arena -/

/-- The sum of the frequencies of the inner nodes written so far. -/
def Arena.innerTotal (ar : Arena) : Nat := (ar.nodes.map Node.innerFrequency).sum

/-- The frequency of a node is the weight of its tree (41 R106). -/
theorem Arena.Holds.freqOf_eq {f : Table Count} {ar : Arena} {p : List NodeIdx} (h : Merging f ar p) {T : HuffTree}
    {i : NodeIdx} (hT : ar.Holds T i) : (freqOf ar i).toNat = T.weight := by
  induction T generalizing i with
  | leaf x c => rw [freqOf_of_slot hT, Node.frequency, nodeFreqOfCount_toNat, HuffTree.weight]
  | node l r ihl ihr =>
    obtain ⟨fr, a, b, hs, hl, hr⟩ := hT
    obtain ⟨-, -, hfr⟩ := h.inner_joins hs
    rw [freqOf_of_slot hs, Node.frequency, hfr, ihl hl, ihr hr, HuffTree.weight]

/-- The nodes of the arena determine the tree. -/
theorem Arena.Holds.unique {ar : Arena} {T U : HuffTree} {i : NodeIdx} (hT : ar.Holds T i) (hU : ar.Holds U i) :
    T = U := by
  induction T generalizing U i with
  | leaf x c =>
    cases U with
    | leaf y d =>
      obtain ⟨rfl, hc⟩ := Node.leaf.inj (Option.some.inj (hT.symm.trans hU))
      have hcd : c = d := BitVec.eq_of_toNat_eq (by rw [← nodeFreqOfCount_toNat c, hc, nodeFreqOfCount_toNat])
      rw [hcd]
    | node l r =>
      obtain ⟨fr, a, b, hs, -⟩ := hU
      cases hT.symm.trans hs
  | node l r ihl ihr =>
    obtain ⟨fr, a, b, hs, hl, hr⟩ := hT
    cases U with
    | leaf y d => cases hs.symm.trans hU
    | node l' r' =>
      obtain ⟨fr', a', b', hs', hl', hr'⟩ := hU
      cases hs.symm.trans hs'
      rw [ihl hl hl', ihr hr hr']

theorem Merging.innerTotal_push {f : Table Count} {ar : Arena} {p q : List NodeIdx} {a b : NodeIdx} (h : Merging f ar p)
    (hpop : Popped ar p a b q) (hp : 1 < p.length) :
    (ar.push (mergeNode ar a b)).innerTotal = ar.innerTotal + ((freqOf ar a).toNat + (freqOf ar b).toNat) := by
  rw [Arena.innerTotal, Arena.push_nodes _ (h.room hp), List.map_append, List.sum_append, List.map_singleton,
    List.sum_singleton, mergeNode, Node.innerFrequency, h.add_exact hpop, Arena.innerTotal]

theorem leaves_innerTotal (f : Table Count) : (leaves f).innerTotal = 0 := by
  rw [Arena.innerTotal, leaves_nodes, leafNodes, List.map_map]
  exact List.sum_eq_zero fun n hn => by
    obtain ⟨e, -, rfl⟩ := List.mem_map.mp hn
    rfl

/-- The trees of the pending nodes hold every inner node. -/
def InnerCovered (ar : Arena) (p : List NodeIdx) : Prop :=
  ∃ ts, List.Forall₂ ar.Holds ts p ∧ (ts.map HuffTree.innerSum).sum = ar.innerTotal

theorem initial_innerCovered (f : Table Count) : InnerCovered (leaves f) (initialPending f.size) := by
  refine ⟨_, (initial_forest f).holds, ?_⟩
  rw [leaves_innerTotal, List.map_map]
  exact List.sum_eq_zero fun n hn => by
    obtain ⟨e, -, rfl⟩ := List.mem_map.mp hn
    rfl

theorem InnerCovered.mergeOnce {sel : Selector} (hsel : LegalSelector sel) {f : Table Count} {ar : Arena}
    {p : List NodeIdx} (h : Merging f ar p) (hc : InnerCovered ar p) (hp : 1 < p.length) :
    InnerCovered (mergeOnce sel ar p).1 (mergeOnce sel ar p).2 := by
  obtain ⟨ts, hts, hsum⟩ := hc
  obtain ⟨q, hpop, hmerge⟩ := exists_popped hsel (ar := ar) hp
  obtain ⟨l, r, us, hperm, hl, hr, hholds⟩ := mergeOnce_holds hsel hts hp (h.room hp)
  refine ⟨us ++ [.node l r], hholds, ?_⟩
  have hts : (ts.map HuffTree.innerSum).sum = _ := (hperm.map _).sum_eq
  simp only [List.map_cons, List.sum_cons] at hts
  rw [hmerge, h.innerTotal_push hpop hp, hl.freqOf_eq h, hr.freqOf_eq h, ← hsum, hts, List.map_append, List.sum_append,
    List.map_singleton, List.sum_singleton, HuffTree.innerSum]
  omega

/-- The inner nodes of the arena are those of the tree that was built. -/
theorem innerSum_of_buildTree {sel : Selector} (hsel : LegalSelector sel) {f : Table Count} {ar : Arena}
    {root : NodeIdx} {T : HuffTree} (hb : buildTree sel f = (ar, [root])) (hT : ar.Holds T root) : T.innerSum = ar.innerTotal := by
  obtain ⟨-, ts, hts, hsum⟩ := buildTree_induction hsel (initial_innerCovered f)
    (fun ar p h hp hc => hc.mergeOnce hsel h hp) hb
  obtain - | @⟨U, _, _, _, hU, hnil⟩ := hts
  obtain - | _ := hnil
  rw [hT.unique hU, ← hsum]
  simp

theorem weighted_buildLengthsWith {sel : Selector} (hsel : LegalSelector sel) {f : Table Count} (hf : 2 ≤ f.size) :
    weighted f (lenAt (buildLengthsWith sel f)) = (buildTree sel f).1.innerTotal := by
  obtain ⟨ar, root, T, h⟩ := exists_depthTree hsel hf
  rw [weighted, ← (h.leaves.map _).sum_eq, T.weighted_depths fun e => h.lenAt_eq,
    innerSum_of_buildTree hsel h.built h.holds, h.built, Nat.mul_zero, Nat.add_zero]

/-- Settles O35: the depth of a leaf is the number of inner nodes above it, and each of these counts the leaf once. -/
theorem weightedLengthIsTheInnerSum : Obligations.WeightedLengthIsTheInnerSum :=
  fun _ _ hsel => weighted_buildLengthsWith hsel

/-! ### Optimality -/

/-- The lengths `len` of the symbols have shrunk to lengths of the pending nodes that satisfy the Kraft inequality, and
what they cost less is the inner nodes made so far (41 R115). -/
def ShrinksTo (f : Table Count) (len : Symbol → Nat) (ar : Arena) (p : List NodeIdx) : Prop :=
  ∃ ps : WeightLengths, ps.map Prod.fst = (p.map fun i => (freqOf ar i).toNat : List ℕ) ∧ ps.kraft ≤ 1 ∧
    ar.innerTotal + ps.cost ≤ weighted f len

theorem initial_shrinksTo {f : Table Count} {len : Symbol → Nat}
    (hk : (f.dom.map fun x => (1 / 2 : ℚ) ^ len x).sum ≤ 1) :
    ShrinksTo f len (leaves f) (initialPending f.size) := by
  refine ⟨(f.entries.map fun e => (e.2.toNat, len e.1) : List (ℕ × ℕ)), ?_, ?_, ?_⟩
  · rw [initialPending_freqs, Multiset.map_coe, List.map_map]
    rfl
  · rw [Table.dom, List.map_map] at hk
    simpa [WeightLengths.kraft, List.map_map, Function.comp_def] using hk
  · rw [leaves_innerTotal]
    simp [WeightLengths.cost, weighted, Function.comp_def]

theorem ShrinksTo.merge {f : Table Count} {len : Symbol → Nat} {ar : Arena} {p q : List NodeIdx} {a b : NodeIdx}
    (hs : ShrinksTo f len ar p) (h : Merging f ar p) (hpop : Popped ar p a b q) (hp : 1 < p.length) :
    ShrinksTo f len (ar.push (mergeNode ar a b)) (q ++ [ar.next]) := by
  obtain ⟨ps, hfst, hk, hcost⟩ := hs
  have hpopped : ps.map Prod.fst = (freqOf ar a).toNat ::ₘ (freqOf ar b).toNat ::ₘ
      (q.map fun i => (freqOf ar i).toNat : List ℕ) := hfst.trans (Multiset.coe_eq_coe.mpr (hpop.perm.map _))
  obtain ⟨qs, hqs, hkraft, hjoined⟩ := WeightLengths.exists_joined hpopped
    (by simpa [BitVec.le_def] using hpop.first) (by simpa [BitVec.le_def] using hpop.second) hk
  refine ⟨qs, ?_, hkraft, ?_⟩
  · rw [hqs, h.freqs_push hpop hp, Multiset.cons_coe, Multiset.coe_eq_coe]
    exact (List.perm_append_singleton _ _).symm
  · rw [h.innerTotal_push hpop hp]
    omega

/-- The inner nodes cost no more than any lengths that satisfy the Kraft inequality. -/
theorem innerTotal_buildTree_le {sel : Selector} (hsel : LegalSelector sel) {f : Table Count} {len : Symbol → Nat}
    (hk : (f.dom.map fun x => (1 / 2 : ℚ) ^ len x).sum ≤ 1) : (buildTree sel f).1.innerTotal ≤ weighted f len := by
  have hstep : ∀ ar p, Merging f ar p → 1 < p.length → ShrinksTo f len ar p →
      ShrinksTo f len (mergeOnce sel ar p).1 (mergeOnce sel ar p).2 := fun ar p h hp hs => by
    obtain ⟨q, hpop, hmerge⟩ := exists_popped hsel (ar := ar) hp
    rw [hmerge]
    exact hs.merge h hpop hp
  obtain ⟨-, ps, -, -, hcost⟩ := buildTree_induction hsel (initial_shrinksTo hk) hstep rfl
  exact (Nat.le_add_right _ _).trans hcost

theorem weighted_mono {f : Table Count} {len len' : Symbol → Nat} (h : ∀ x ∈ f.dom, len x ≤ len' x) :
    weighted f len ≤ weighted f len' :=
  List.sum_le_sum fun e he => Nat.mul_le_mul_left _ (h e.1 (List.mem_map_of_mem he))

/-- Settles O34: from two symbols on by joining the two least weights merge by merge; a single symbol has the least
length there is. -/
theorem builtLengthsAreOptimal : Obligations.BuiltLengthsAreOptimal := by
  intro sel f len hsel hlen hk
  rcases Nat.lt_or_ge f.size 2 with hlt | hge
  · refine weighted_mono fun x hx => le_trans ?_ (hlen x hx)
    have hsize : f.size = 1 := by
      have := List.length_pos_of_mem hx
      simp only [Table.dom, List.length_map, Table.size] at this hlt ⊢
      omega
    exact lenAt_buildLengthsWith_single_le hsel hsize x
  · rw [weighted_buildLengthsWith hsel hge]
    exact innerTotal_buildTree_le hsel hk

end Sys2Proof.Machine
end

section
/-! The choice among pending nodes: the machine takes the least pair of frequency and index, and another legal choice
gives other lengths (41 R105, R108). -/

namespace Sys2Proof.Machine

/-- `(freq(i), i) ≤ (freq(j), j)` in the lexicographic order (41 R105). -/
def PairLe (ar : Arena) (i j : NodeIdx) : Prop := freqOf ar i < freqOf ar j ∨ (freqOf ar i = freqOf ar j ∧ i ≤ j)

theorem PairLe.refl (ar : Arena) (i : NodeIdx) : PairLe ar i i := .inr ⟨rfl, BitVec.le_refl i⟩

theorem PairLe.trans {ar : Arena} {i j k : NodeIdx} (h : PairLe ar i j) (h' : PairLe ar j k) : PairLe ar i k := by
  simp only [PairLe] at *
  bv_omega

theorem pairLe_of_nodeBefore {ar : Arena} {i j : NodeIdx} (h : nodeBefore ar i j = true) : PairLe ar i j := by
  simp only [nodeBefore, Bool.or_eq_true, Bool.and_eq_true, decide_eq_true_eq] at h
  exact h.imp_right fun ⟨hf, hi⟩ => ⟨hf, BitVec.le_of_lt hi⟩

theorem pairLe_of_not_nodeBefore {ar : Arena} {i j : NodeIdx} (h : ¬ nodeBefore ar i j = true) : PairLe ar j i := by
  simp only [nodeBefore, Bool.or_eq_true, Bool.and_eq_true, decide_eq_true_eq] at h
  simp only [PairLe]
  bv_omega

theorem selectLowest_pairLe (ar : Arena) (p : List NodeIdx) : ∀ j ∈ p, PairLe ar (selectLowest ar p) j := by
  induction p with
  | nil => exact fun j hj => nomatch hj
  | cons i rest ih =>
    cases rest with
    | nil =>
      intro j hj
      obtain rfl := List.mem_singleton.mp hj
      exact PairLe.refl ar j
    | cons j rest =>
      rw [selectLowest_cons, List.forall_mem_cons]
      split
      case isTrue h => exact ⟨PairLe.refl ar i, fun k hk => (pairLe_of_nodeBefore h).trans (ih k hk)⟩
      case isFalse h => exact ⟨pairLe_of_not_nodeBefore h, ih⟩

/-- Settles O28, by induction on the pending list. -/
theorem selectTakesTheLeastPair : Obligations.SelectTakesTheLeastPair :=
  fun ar p hp => ⟨(selectLowest_legal ar p hp).1, selectLowest_pairLe ar p⟩

/-- Among equal frequencies the highest index is a legal choice too (41 R108). -/
theorem selectHighest_legal : LegalSelector selectHighest := by
  intro ar p
  induction p with
  | nil => exact fun h => absurd rfl h
  | cons i rest ih =>
    intro _
    cases rest with
    | nil => simp [selectHighest]
    | cons j rest =>
      obtain ⟨hmem, hle⟩ := ih (List.cons_ne_nil j rest)
      rw [selectHighest, List.forall_mem_cons]
      split
      case isTrue h =>
        have hi : freqOf ar i ≤ freqOf ar (selectHighest ar (j :: rest)) :=
          h.elim BitVec.le_of_lt fun h => h.1 ▸ BitVec.le_refl _
        exact ⟨List.mem_cons_self, BitVec.le_refl _, fun k hk => BitVec.le_trans hi (hle k hk)⟩
      case isFalse h => exact ⟨List.mem_cons_of_mem _ hmem, BitVec.not_lt.mp (not_or.mp h).1, hle⟩

/-- Settles O31: both choices are run on the four counts. -/
theorem tieBreakShowsInTheLengths : Obligations.TieBreakShowsInTheLengths := by
  refine ⟨selectHighest_legal, ?_⟩
  rintro _ rfl
  decide

end Sys2Proof.Machine
end

section
/-! The commands of the huffman_tree_builder, one by one (41 R100, R101, R113, R120, R122, R123), by the cases of their
effect. -/

namespace Sys2Proof

open Machine

theorem encode_lset (x : Symbol) (l : Len) :
    encode (.lset x l) = 0x2100000000000000 ||| symField x ||| l.setWidth 64 :=
  (wordOf_eq_or 0x21 x (l.setWidth 32)).trans (by simp)

theorem encode_lget (x : Symbol) : encode (.lget x) = 0x2200000000000000 ||| symField x :=
  (wordOf_eq_or 0x22 x 0).trans (by simp)

end Sys2Proof

namespace Sys2Proof.Machine

/-! ### `BUILD` -/

/-- Tables with the same symbols have the same number of entries. -/
theorem SameDomain.size_eq {α β : Type} {t : Table α} {u : Table β} (h : SameDomain t u) : t.size = u.size := by
  have hperm : t.dom.Perm u.dom := (List.perm_ext_iff_of_nodup t.dom_nodup u.dom_nodup).mpr fun x => by
    rw [Table.mem_dom, Table.mem_dom, ne_eq, ne_eq, h x]
  simpa [Table.dom, Table.size] using hperm.length_eq

/-- Settles O24, by the successful case of the effect of `BUILD`. -/
theorem buildReplacesLenAndConsumesFreq : Obligations.BuildReplacesLenAndConsumesFreq := by
  refine ⟨by decide, fun s hs => ?_⟩
  rw [allAbsent_iff_size] at hs
  have hdom : SameDomain (buildLengths s.freq) s.freq := buildLengthsWith_domain selectLowest_legal s.freq
  refine ⟨_, (Effect.build hs).exec_eq, rfl, hdom, allAbsent_empty, rfl, ⟨rfl, rfl⟩, ?_, Nat.pos_of_ne_zero hs,
    s.freq.size_le⟩
  rw [← hdom.size_eq]
  rfl

/-- Settles O23, by the failing cases of the effects of `BUILD` and `GEN`. -/
theorem emptyFreqFailsBuildAndGen : Obligations.EmptyFreqFailsBuildAndGen := by
  intro s hs
  rw [allAbsent_iff_size] at hs
  exact ⟨⟨_, (Effect.buildEmpty hs).exec_eq, ⟨rfl, rfl, rfl⟩, rfl, rfl, rfl⟩,
    ⟨_, (Effect.genEmpty hs).exec_eq, ⟨rfl, rfl, rfl⟩, rfl, rfl, rfl⟩⟩

/-! ### `LSET` and `LGET` -/

theorem onlyLenAt_setLen (x : Symbol) (l : Len) (s : State) : OnlyLenAt x s (s.setLen x l) :=
  ⟨rfl, fun _ hy => s.len.get_set_of_ne l hy, rfl⟩

/-- Settles O25, by the two cases of the effect of `LSET`. -/
theorem lsetLoadsOneEntry : Obligations.LsetLoadsOneEntry := by
  intro x l s
  refine ⟨encode_lset x l, ?_, fun hl => ?_⟩
  · rintro rfl
    exact ⟨_, (Effect.lsetZero x).exec_eq, ⟨rfl, rfl, rfl⟩, rfl, rfl, rfl⟩
  · exact ⟨_, (Effect.lset x hl).exec_eq, by simp, rfl, onlyLenAt_setLen x l s, rfl, rfl⟩

/-- Settles O26, by the one case of the effect of `LGET` and the two forms of its answer. -/
theorem lgetAnswersTheEntry : Obligations.LgetAnswersTheEntry := by
  intro x s
  refine ⟨encode_lget x, _, _, (Effect.lget x).exec_eq, rfl, ⟨rfl, rfl, rfl⟩, ⟨rfl, rfl⟩, ?_⟩
  cases hx : s.len.get x with
  | none => exact ⟨rfl, rfl, fun _ => ⟨rfl, rfl⟩, nofun, fun _ _ => rfl⟩
  | some l =>
    refine ⟨rfl, rfl, nofun, fun m hm => ?_, fun hinv hzero => absurd hzero (hinv.lenRange x l hx)⟩
    cases hm
    exact ⟨rfl, rfl⟩

/-! ### What the results depend on -/

/-- Settles O60: a success on one map is the same success on an equal one. -/
theorem resultsDependOnTheInputMapAlone : Obligations.ResultsDependOnTheInputMapAlone := by
  refine ⟨fun s u t v hmap ht hv hok => ?_, fun s u t v hmap ht hv hok => ?_, fun s u t v hmap ht hv hok => ?_⟩
  all_goals obtain ⟨w, r, he, rfl⟩ := exec_inversion ht
  · cases he with
    | buildEmpty => cases hok
    | build h =>
      rw [(Effect.build (Table.size_congr hmap ▸ h)).exec_eq] at hv
      cases hv
      exact buildLengths_congr hmap
  · cases he with
    | genEmpty => cases hok
    | genOverflow => cases hok
    | gen h ha =>
      rw [(Effect.gen (Table.size_congr hmap ▸ h) (buildLengths_congr hmap ▸ ha)).exec_eq] at hv
      cases hv
      rfl
  · cases he with
    | assignEmpty => cases hok
    | assignOverflow => cases hok
    | assign h ha =>
      rw [(Effect.assign (Table.size_congr hmap ▸ h) (assignCodes_congr hmap ▸ ha)).exec_eq] at hv
      cases hv
      rfl

end Sys2Proof.Machine
end

section
/-! The order of the records: strictly ascending by (length, symbol), which is the order of the scan (42 R133). -/

namespace Sys2Proof.Machine

/-- The strict order of the records (42 R133). -/
def Record.Before (a b : Record) : Prop := a.1 < b.1 ∨ (a.1 = b.1 ∧ a.2 < b.2)

theorem Record.Before.asymm {a b : Record} (h : a.Before b) : ¬ b.Before a := by
  simp only [Record.Before] at *
  bv_omega

/-- No symbol has two records. -/
theorem sortedRecords_symbols_nodup (t : Table Len) : ((sortedRecords t).map Prod.snd).Nodup := by
  have hperm : ((sortedRecords t).map Prod.snd).Perm t.dom := by
    simpa [Table.dom, Function.comp_def] using (sortedRecords_perm t).map Prod.snd
  exact hperm.nodup_iff.mpr t.dom_nodup

/-- The sort compares by `Record.le`; different symbols make its order strict. -/
theorem sortedRecords_before (t : Table Len) : (sortedRecords t).Pairwise Record.Before := by
  have htotal : Std.Total Record.le := ⟨fun a b => by simp only [Record.le]; bv_omega⟩
  have htrans : IsTrans Record Record.le := ⟨fun a b c hab hbc => by simp only [Record.le] at *; bv_omega⟩
  have hle : (sortedRecords t).Pairwise Record.le := List.pairwise_insertionSort Record.le _
  have hne : (sortedRecords t).Pairwise fun a b => a.2 ≠ b.2 := List.pairwise_map.mp (sortedRecords_symbols_nodup t)
  refine hle.imp₂ (fun a b hab hsym => ?_) hne
  simp only [Record.le, Record.Before] at *
  bv_omega

/-- Strictly ascending records are determined by what they contain. -/
theorem Record.ext_of_before {rs qs : List Record} (hrs : rs.Pairwise Record.Before) (hqs : qs.Pairwise Record.Before)
    (h : ∀ r, r ∈ rs ↔ r ∈ qs) : rs = qs := by
  have nodup : ∀ {l : List Record}, l.Pairwise Record.Before → l.Nodup := fun hl =>
    hl.imp <| by
      rintro a _ hlt rfl
      exact hlt.asymm hlt
  exact ((List.perm_ext_iff_of_nodup (nodup hrs) (nodup hqs)).mpr h).eq_of_pairwise
    (fun _ _ _ _ hab hba => absurd hba hab.asymm) hrs hqs

/-! ### The scan -/

/-- One round of the scan: the records of one length, by ascending symbol (42 R133). -/
theorem mem_scanRound (t : Table Len) (l : Len) (r : Record) :
    (r ∈ symbols.filterMap fun x => if t.get x = some l then some (l, x) else none) ↔
      r.1 = l ∧ t.get r.2 = some l := by
  obtain ⟨m, y⟩ := r
  simp only [List.mem_filterMap, Option.ite_none_right_eq_some, Option.some.injEq, Prod.mk.injEq]
  constructor
  · rintro ⟨x, -, hx, rfl, rfl⟩
    exact ⟨rfl, hx⟩
  · rintro ⟨rfl, hy⟩
    exact ⟨y, mem_symbols y, hy, rfl, rfl⟩

theorem scanRecords_before (t : Table Len) : (scanRecords t).Pairwise Record.Before := by
  refine List.pairwise_flatMap.mpr ⟨fun k _ => ?_, ?_⟩
  · refine symbols_pairwise.filterMap _ fun x y hxy a ha b hb => ?_
    simp only [Option.ite_none_right_eq_some, Option.some.injEq] at ha hb
    obtain ⟨-, rfl⟩ := ha
    obtain ⟨-, rfl⟩ := hb
    exact .inr ⟨rfl, hxy⟩
  · refine List.pairwise_lt_range.imp_of_mem fun {j k} hj hk hjk a ha b hb => .inl ?_
    rw [((mem_scanRound t _ a).mp ha).1, ((mem_scanRound t _ b).mp hb).1]
    simp only [List.mem_range] at hj hk
    simp only [BitVec.lt_def, BitVec.toNat_ofNat]
    omega

/-- The scan meets every entry of a length from 1 to 255. -/
theorem mem_scanRecords (t : Table Len) (l : Len) (x : Symbol) :
    (l, x) ∈ scanRecords t ↔ l ≠ 0 ∧ t.get x = some l := by
  simp only [scanRecords, List.mem_flatMap, mem_scanRound, List.mem_range]
  constructor
  · rintro ⟨k, hk, rfl, hget⟩
    exact ⟨by bv_omega, hget⟩
  · rintro ⟨hl, hget⟩
    have hl' : BitVec.ofNat 8 (l.toNat - 1 + 1) = l := by bv_omega
    exact ⟨l.toNat - 1, by bv_omega, hl'.symm, hl'.symm ▸ hget⟩

/-- Settles O39: both lists ascend strictly and contain the entries of the table. -/
theorem recordsAreSortedByLengthThenSymbol : Obligations.RecordsAreSortedByLengthThenSymbol := by
  intro t
  refine ⟨sortedRecords_before t, mem_sortedRecords t, fun hrange => ?_⟩
  refine Record.ext_of_before (sortedRecords_before t) (scanRecords_before t) fun ⟨l, x⟩ => ?_
  rw [mem_sortedRecords, mem_scanRecords]
  exact ⟨fun h => ⟨hrange x l h, h⟩, And.right⟩

end Sys2Proof.Machine
end

section
/-! The suffixes that the walk assigns (42 R135, R139): aligned to `MAX_LEN` bits, the code of a record is the Kraft sum
of the records before it. -/

namespace Sys2Proof.Machine

/-! ### What the walk writes -/

variable {recs : List Record} {w : Walk} {out c : Table Codeword}

/-- The walk leaves the entries of symbols that have no record ahead. -/
theorem walkRecords_get_of_not_mem (hw : walkRecords recs w out = some c) {y : Symbol}
    (hy : y ∉ recs.map Prod.snd) : c.get y = out.get y := by
  induction recs generalizing w out with
  | nil => rw [← Option.some.inj hw]
  | cons r recs ih =>
    obtain ⟨l, x⟩ := r
    simp only [List.map_cons, List.mem_cons, not_or] at hy
    obtain ⟨hyx, hy⟩ := hy
    by_cases hc : codeLimit (padTo l Config.maxLen w).length ≤ (padTo l Config.maxLen w).code
    · rw [walkRecords_overflow hc] at hw; cases hw
    · rw [walkRecords_cons hc] at hw
      rw [ih hw hy, Table.get_set_of_ne _ _ hyx]

/-- A codeword's value as a bit string continued by zeros to `MAX_LEN` bits. -/
def Codeword.aligned (v : Codeword) : Nat := v.suffix.toNat * 2 ^ (Config.maxLen - v.len.toNat)

/-- The registers' code, continued by zeros to `MAX_LEN` bits. -/
def Walk.aligned (w : Walk) : Nat := w.code.toNat * 2 ^ (Config.maxLen - w.length.toNat)

variable {l : Len} {x : Symbol}

/-- Padding continues the code by zeros, so it leaves the aligned code as it is. -/
theorem Walk.Ready.aligned_pad (h : w.Ready ((l, x) :: recs)) : (padTo l Config.maxLen w).aligned = w.aligned := by
  have hahead : w.length.toNat ≤ l.toNat := h.ahead _ List.mem_cons_self
  rw [Walk.aligned, h.pad.1, h.pad.2, Nat.mul_assoc, ← two_pow_maxLen_sub hahead, Walk.aligned]

/-- Past the test, the codeword of a record is the padded code. -/
theorem Walk.Ready.aligned_codeword (h : w.Ready ((l, x) :: recs))
    (hc : w.code.toNat * 2 ^ (l.toNat - w.length.toNat) < 2 ^ l.toNat) :
    (padTo l Config.maxLen w).codeword.aligned = w.aligned := by
  rw [← h.pad.2] at hc
  rw [← h.aligned_pad, Codeword.aligned, codeword_suffix_toNat hc]
  rfl

/-- The increment adds the record's term of the Kraft sum. -/
theorem Walk.Ready.aligned_next (h : w.Ready ((l, x) :: recs))
    (hc : w.code.toNat * 2 ^ (l.toNat - w.length.toNat) < 2 ^ l.toNat) :
    (w.next l).aligned = w.aligned + 2 ^ (Config.maxLen - l.toNat) := by
  rw [← h.aligned_pad, Walk.aligned, Walk.aligned, h.next_length, h.pad.1, h.next_code hc, h.pad.2, Nat.add_one_mul]

/-- A successful walk writes record `i` with its length, and its aligned code is the walk's at the start plus the Kraft
sum of the records before it. -/
theorem walkRecords_record (h : w.Ready recs) (hnodup : (recs.map Prod.snd).Nodup)
    (hw : walkRecords recs w out = some c) {i : Nat} (hi : i < recs.length) :
    ∃ v, c.get (recAt recs i).2 = some v ∧ v.len = (recAt recs i).1 ∧
      v.aligned = w.aligned + recordSum (recs.take i) := by
  induction recs generalizing w out i with
  | nil => simp at hi
  | cons r recs ih =>
    obtain ⟨l, x⟩ := r
    simp only [List.map_cons, List.nodup_cons] at hnodup
    obtain ⟨hx, hnodup⟩ := hnodup
    rw [walkRecords_step h] at hw
    split_ifs at hw with hc
    cases i with
    | zero =>
      refine ⟨_, ?_, h.pad.1, h.aligned_codeword hc⟩
      exact (walkRecords_get_of_not_mem hw hx).trans (Table.get_set_self _ _ _)
    | succ i =>
      obtain ⟨v, hget, hlen, hval⟩ := ih (h.next hc) hnodup hw (Nat.lt_of_succ_lt_succ hi)
      refine ⟨v, hget, hlen, ?_⟩
      rw [hval, h.aligned_next hc, Nat.add_assoc]
      rfl

/-! ### The closed form -/

theorem recAt_eq_getElem {i : Nat} (hi : i < recs.length) : recAt recs i = recs[i] := List.getD_eq_getElem _ _ hi

theorem mem_iff_recAt {r : Record} : r ∈ recs ↔ ∃ i, i < recs.length ∧ recAt recs i = r := by
  rw [List.mem_iff_getElem]
  constructor <;> exact fun ⟨i, hi, h⟩ => ⟨i, hi, recAt_eq_getElem hi ▸ h⟩

theorem recAt_rel {R : Record → Record → Prop} (h : recs.Pairwise R) {i j : Nat} (hij : i < j)
    (hj : j < recs.length) : R (recAt recs i) (recAt recs j) := by
  rw [recAt_eq_getElem hj, recAt_eq_getElem (hij.trans hj)]
  exact List.pairwise_iff_getElem.mp h i j _ _ hij

/-- The recurrence of the closed form: one more than the code before, shifted by the growth in length (42 R139). -/
theorem codeSum_succ (hasc : recs.Pairwise fun a b => a.1 ≤ b.1) {i : Nat} (hi : i + 1 < recs.length) :
    codeSum recs (i + 1) = (codeSum recs i + 1) * 2 ^ ((recAt recs (i + 1)).1.toNat - (recAt recs i).1.toNat) := by
  have hstep : (recAt recs i).1 ≤ (recAt recs (i + 1)).1 := recAt_rel hasc i.lt_succ_self hi
  have hterm : ∀ j ∈ List.range i, 2 ^ ((recAt recs (i + 1)).1.toNat - (recAt recs j).1.toNat) =
      2 ^ ((recAt recs i).1.toNat - (recAt recs j).1.toNat) *
        2 ^ ((recAt recs (i + 1)).1.toNat - (recAt recs i).1.toNat) := by
    intro j hj
    have hji : (recAt recs j).1 ≤ (recAt recs i).1 := recAt_rel hasc (List.mem_range.mp hj) (Nat.lt_of_succ_lt hi)
    rw [← Nat.pow_add]
    congr 1
    bv_omega
  rw [codeSum, List.range_succ, List.map_append, List.sum_append, List.map_congr_left hterm, List.sum_map_mul_right,
    Nat.add_one_mul]
  simp [codeSum]

theorem recordSum_take_succ {i : Nat} (hi : i < recs.length) :
    recordSum (recs.take (i + 1)) = recordSum (recs.take i) + 2 ^ (Config.maxLen - (recAt recs i).1.toNat) := by
  rw [recAt_eq_getElem hi, recordSum, recordSum, List.map_take, List.map_take,
    List.sum_take_succ _ _ (by simpa using hi), List.getElem_map]

/-- The closed form, continued by zeros to `MAX_LEN` bits, is the Kraft sum of the records before. -/
theorem codeSum_aligned (hasc : recs.Pairwise fun a b => a.1 ≤ b.1) {i : Nat} (hi : i < recs.length) :
    codeSum recs i * 2 ^ (Config.maxLen - (recAt recs i).1.toNat) = recordSum (recs.take i) := by
  induction i with
  | zero => simp [codeSum, recordSum]
  | succ i ih =>
    have hi' : i < recs.length := Nat.lt_of_succ_lt hi
    have hle : (recAt recs i).1.toNat ≤ (recAt recs (i + 1)).1.toNat := recAt_rel hasc i.lt_succ_self hi
    rw [codeSum_succ hasc hi, Nat.mul_assoc, ← two_pow_maxLen_sub hle, Nat.add_one_mul, ih hi', recordSum_take_succ hi']

/-- The aligned codes of two records lie apart by at least the earlier record's term of the Kraft sum. -/
theorem codeSum_end_le (hasc : recs.Pairwise fun a b => a.1 ≤ b.1) {i j : Nat} (hij : i < j) (hj : j < recs.length) :
    (codeSum recs i + 1) * 2 ^ (Config.maxLen - (recAt recs i).1.toNat) ≤
      codeSum recs j * 2 ^ (Config.maxLen - (recAt recs j).1.toNat) := by
  have hi : i < recs.length := hij.trans hj
  have hsub : (recs.take (i + 1)).Sublist (recs.take j) := (List.take_prefix_take_left hij).sublist
  rw [Nat.add_one_mul, codeSum_aligned hasc hi, codeSum_aligned hasc hj, ← recordSum_take_succ hi]
  exact (hsub.map _).sum_le_sum fun _ _ => Nat.zero_le _

/-! ### The assigned table -/

variable {t : Table Len} {v : Codeword}

/-- The codeword of a record: its length and the closed form (42 R139). -/
theorem assignCodes_record (h : assignCodes t = some c) {i : Nat} (hi : i < (sortedRecords t).length) :
    ∃ v, c.get (recAt (sortedRecords t) i).2 = some v ∧ v.len = (recAt (sortedRecords t) i).1 ∧
      v.suffix.toNat = codeSum (sortedRecords t) i := by
  rw [assignCodes_eq] at h
  obtain ⟨v, hget, hlen, hval⟩ := walkRecords_record (assignCodes_ready t) (sortedRecords_symbols_nodup t) h hi
  refine ⟨v, hget, hlen, ?_⟩
  rw [← codeSum_aligned (sortedRecords_ascending t) hi, Codeword.aligned, Walk.aligned, hlen] at hval
  simpa using hval

/-- Every codeword of an assigned table is the one of some record. -/
theorem exists_record_of_get (h : assignCodes t = some c) {x : Symbol} (hv : c.get x = some v) :
    ∃ i, i < (sortedRecords t).length ∧ recAt (sortedRecords t) i = (v.len, x) ∧
      v.suffix.toNat = codeSum (sortedRecords t) i := by
  obtain ⟨i, hi, hrec⟩ := mem_iff_recAt.mp ((mem_sortedRecords t _ _).mpr (assignCodes_codeword h hv).1)
  obtain ⟨u, hget, -, hval⟩ := assignCodes_record h hi
  rw [hrec, hv] at hget
  cases hget
  exact ⟨i, hi, hrec, hval⟩

/-- Every entry of the length table gets a codeword of its length (42 R142). -/
theorem exists_codeword_of_get (h : assignCodes t = some c) {x : Symbol} {l : Len} (hl : t.get x = some l) :
    ∃ v, c.get x = some v ∧ v.len = l := by
  obtain ⟨i, hi, hrec⟩ := mem_iff_recAt.mp ((mem_sortedRecords t _ _).mpr hl)
  obtain ⟨v, hget, hlen, -⟩ := assignCodes_record h hi
  rw [hrec] at hget hlen
  exact ⟨v, hget, hlen⟩

/-- The codewords are those of the symbols that have a length (42 R142). -/
theorem assignCodes_sameDomain (h : assignCodes t = some c) : SameDomain c t := by
  intro x
  constructor
  · intro hc
    cases hl : t.get x with
    | none => rfl
    | some l =>
      obtain ⟨v, hv, -⟩ := exists_codeword_of_get h hl
      rw [hc] at hv; cases hv
  · intro ht
    cases hv : c.get x with
    | none => rfl
    | some v => rw [(assignCodes_codeword h hv).1] at ht; cases ht

/-- Settles O41, by the walk's aligned codes and the recurrence of the closed form. -/
theorem codesHaveTheClosedForm : Obligations.CodesHaveTheClosedForm := by
  rintro t c _ h rfl
  refine ⟨fun i => assignCodes_record h, rfl, fun i hpos hi => ?_⟩
  obtain ⟨k, rfl⟩ := Nat.exists_eq_succ_of_ne_zero hpos.ne'
  exact codeSum_succ (sortedRecords_ascending t) hi

end Sys2Proof.Machine
end

section
/-! The properties of an assigned table (42 R136, R137, R144), read off the closed form. -/

namespace Sys2Proof.Machine

variable {t : Table Len} {c : Table Codeword} {x y : Symbol} {v w : Codeword}

/-- The range of strings of `MAX_LEN` bits that start with `v` ends before the range of those that start with `w`. -/
def Codeword.EndsBefore (v w : Codeword) : Prop :=
  (v.suffix.toNat + 1) * 2 ^ (Config.maxLen - v.len.toNat) ≤ w.aligned

/-- Along the records the codewords' ranges follow one another. -/
theorem assignCodes_endsBefore (h : assignCodes t = some c) {i j : Nat} (hij : i < j)
    (hj : j < (sortedRecords t).length) (hv : c.get (recAt (sortedRecords t) i).2 = some v)
    (hw : c.get (recAt (sortedRecords t) j).2 = some w) : v.EndsBefore w := by
  obtain ⟨_, hget, hvlen, hvval⟩ := assignCodes_record h (hij.trans hj)
  cases hget.symm.trans hv
  obtain ⟨_, hget, hwlen, hwval⟩ := assignCodes_record h hj
  cases hget.symm.trans hw
  rw [Codeword.EndsBefore, Codeword.aligned, hvlen, hvval, hwlen, hwval]
  exact codeSum_end_le (sortedRecords_ascending t) hij hj

/-- The ranges of two symbols' codewords do not overlap. -/
theorem endsBefore_or_endsBefore (h : assignCodes t = some c) (hxy : x ≠ y) (hv : c.get x = some v)
    (hw : c.get y = some w) : v.EndsBefore w ∨ w.EndsBefore v := by
  obtain ⟨i, hi, hri, -⟩ := exists_record_of_get h hv
  obtain ⟨j, hj, hrj, -⟩ := exists_record_of_get h hw
  have hij : i ≠ j := by
    rintro rfl
    exact hxy (congrArg Prod.snd (hri.symm.trans hrj))
  rcases Nat.lt_or_gt_of_ne hij with hlt | hlt
  · exact .inl (assignCodes_endsBefore h hlt hj (hri ▸ hv) (hrj ▸ hw))
  · exact .inr (assignCodes_endsBefore h hlt hi (hrj ▸ hw) (hri ▸ hv))

/-! ### Prefixes -/

/-- A codeword whose first bits are another codeword lies in the other's range, so neither range ends before the
other. -/
theorem div_ne_of_endsBefore (hle : v.len ≤ w.len) (h : v.EndsBefore w ∨ w.EndsBefore v) :
    w.suffix.toNat / 2 ^ (w.len.toNat - v.len.toNat) ≠ v.suffix.toNat := by
  have hpos : 0 < 2 ^ (w.len.toNat - v.len.toNat) := Nat.two_pow_pos _
  have hunit : 0 < 2 ^ (Config.maxLen - w.len.toNat) := Nat.two_pow_pos _
  have hunits : 2 ^ (Config.maxLen - v.len.toNat) = _ := two_pow_maxLen_sub hle
  intro hdiv
  obtain ⟨hlo, hhi⟩ := (Nat.div_eq_iff hpos).mp hdiv
  simp only [Codeword.EndsBefore, Codeword.aligned, hunits, ← Nat.mul_assoc, Nat.mul_le_mul_right_iff hunit] at h
  rw [Nat.add_one_mul] at h
  omega

@[simp] theorem Codeword.length_bits (v : Codeword) : v.bits.length = v.len.toNat := by
  simp [Codeword.bits]

theorem Codeword.getElem_bits {v : Codeword} {i : Nat} (hi : i < v.bits.length) :
    v.bits[i] = v.suffix.getLsbD (v.len.toNat - 1 - i) := by
  simp [Codeword.bits]

/-- The first bits of a codeword as a number are the quotient by a power of two (20_memory R42). -/
theorem div_eq_of_bits_prefix (hv : v.suffix.toNat < 2 ^ v.len.toNat) (hw : w.suffix.toNat < 2 ^ w.len.toNat)
    (h : v.bits <+: w.bits) :
    v.len ≤ w.len ∧ w.suffix.toNat / 2 ^ (w.len.toNat - v.len.toNat) = v.suffix.toNat := by
  have hle : v.len.toNat ≤ w.len.toNat := by simpa using h.length_le
  refine ⟨hle, Nat.eq_of_testBit_eq fun k => ?_⟩
  rw [Nat.testBit_div_two_pow]
  by_cases hk : k < v.len.toNat
  · have hkv : v.len.toNat - 1 - (v.len.toNat - 1 - k) = k := by omega
    have hkw : w.len.toNat - 1 - (v.len.toNat - 1 - k) = k + (w.len.toNat - v.len.toNat) := by omega
    have hi : v.len.toNat - 1 - k < v.bits.length := by rw [Codeword.length_bits]; omega
    have hbit := h.getElem hi
    rw [Codeword.getElem_bits, Codeword.getElem_bits, hkv, hkw] at hbit
    exact hbit.symm
  · rw [Nat.testBit_lt_two_pow (hv.trans_le (Nat.pow_le_pow_right (by decide) (by omega))),
      Nat.testBit_lt_two_pow (hw.trans_le (Nat.pow_le_pow_right (by decide) (by omega)))]

/-- No codeword of an assigned table begins another symbol's codeword (42 R137). -/
theorem assignCodes_prefixFree (h : assignCodes t = some c) : PrefixFree c := by
  intro x y v w hxy hv hw hpre
  obtain ⟨hle, hdiv⟩ := div_eq_of_bits_prefix (assignCodes_codeword h hv).2 (assignCodes_codeword h hw).2 hpre
  exact div_ne_of_endsBefore hle (endsBefore_or_endsBefore h hxy hv hw) hdiv

/-- Settles O43: a codeword that starts with another lies in the other's range, and the ranges are disjoint. -/
theorem assignedCodesArePrefixFree : Obligations.AssignedCodesArePrefixFree := fun _ _ h =>
  ⟨assignCodes_prefixFree h, fun _ _ _ _ hxy hv hw hle =>
    div_ne_of_endsBefore hle (endsBefore_or_endsBefore h hxy hv hw)⟩

/-! ### Codewords of equal length -/

/-- Between two records of one length stand only records of that length, by ascending symbol. -/
theorem Record.Before.between {a r b : Record} (har : a.Before r) (hrb : r.Before b) (hlen : a.1 = b.1) :
    r.1 = a.1 ∧ a.2 < r.2 ∧ r.2 < b.2 := by
  simp only [Record.Before] at har hrb
  bv_omega

/-- A record that comes before another has the smaller index. -/
theorem lt_of_recAt_before {recs : List Record} (h : recs.Pairwise Record.Before) {i j : Nat} (hi : i < recs.length)
    (hij : (recAt recs i).Before (recAt recs j)) : i < j := by
  rcases Nat.lt_trichotomy i j with hlt | rfl | hgt
  · exact hlt
  · exact absurd hij hij.asymm
  · exact absurd hij (recAt_rel h hgt hi).asymm

/-- Settles O42: no record lies between the two, so the recurrence of the closed form adds one and shifts by 0. -/
theorem equalLengthCodesAreConsecutive : Obligations.EqualLengthCodesAreConsecutive := by
  intro t c x y v w h hxy hv hw hlen hbetween
  obtain ⟨i, hi, hri, hvi⟩ := exists_record_of_get h hv
  obtain ⟨j, hj, hrj, hwj⟩ := exists_record_of_get h hw
  have hbefore := sortedRecords_before t
  have hij : i < j := lt_of_recAt_before hbefore hi (by rw [hri, hrj]; exact .inr ⟨hlen, hxy⟩)
  have hnext : j = i + 1 := by
    by_contra hne
    have hk : i + 1 < j := by omega
    have hrel := (recAt_rel hbefore i.lt_add_one (hk.trans hj)).between (recAt_rel hbefore hk hj)
    rw [hri, hrj] at hrel
    obtain ⟨hklen, hxk, hky⟩ := hrel hlen
    obtain ⟨u, hu, hulen, -⟩ := assignCodes_record h (hk.trans hj)
    exact hbetween _ u hxk hky hu (hulen.trans hklen)
  subst hnext
  rw [hvi, hwj, codeSum_succ (sortedRecords_ascending t) hj, hri, hrj, hlen, Nat.sub_self, Nat.pow_zero, Nat.mul_one]

/-! ### The first and the last codeword -/

/-- The first record's codeword is all zeros (42 R144). -/
theorem assignCodes_first (h : assignCodes t = some c) (hne : sortedRecords t ≠ []) :
    c.get (recAt (sortedRecords t) 0).2 = some ⟨(recAt (sortedRecords t) 0).1, 0⟩ := by
  obtain ⟨⟨l, s⟩, hget, hlen, hval⟩ := assignCodes_record h (List.length_pos_iff.mpr hne)
  have hzero : s = 0 := BitVec.eq_of_toNat_eq hval
  rw [hget, ← hlen, hzero]

/-- Where the Kraft sum is exactly 1, the last code is all ones (42 R144). -/
theorem codeSum_last {recs : List Record} (hasc : recs.Pairwise fun a b => a.1 ≤ b.1)
    (hsum : recordSum recs = 2 ^ Config.maxLen) :
    recs.length - 1 < recs.length ∧
      codeSum recs (recs.length - 1) = 2 ^ (recAt recs (recs.length - 1)).1.toNat - 1 := by
  have hpos : 0 < recs.length := by
    refine List.length_pos_iff.mpr ?_
    rintro rfl
    exact (Nat.two_pow_pos _).ne hsum
  have hlast : recs.length - 1 < recs.length := Nat.sub_one_lt_of_lt hpos
  refine ⟨hlast, Nat.eq_sub_of_add_eq ?_⟩
  have htop := two_pow_maxLen_sub (Nat.zero_le (recAt recs (recs.length - 1)).1.toNat)
  have hend := recordSum_take_succ hlast
  rw [Nat.sub_add_cancel hpos, List.take_length, hsum, ← codeSum_aligned hasc hlast, ← Nat.add_one_mul] at hend
  simp only [Nat.sub_zero] at htop
  exact (Nat.eq_of_mul_eq_mul_right (Nat.two_pow_pos _) (htop.symm.trans hend)).symm

theorem sortedRecords_single {l : Len} (ht : ∀ y, t.get y = if y = x then some l else none) :
    sortedRecords t = [(l, x)] := by
  refine Record.ext_of_before (sortedRecords_before t) (List.pairwise_singleton _ _) fun ⟨m, y⟩ => ?_
  rw [mem_sortedRecords, ht, Option.ite_none_right_eq_some, List.mem_singleton, Prod.mk.injEq, Option.some.injEq]
  exact ⟨fun ⟨hy, hl⟩ => ⟨hl.symm, hy⟩, fun ⟨hm, hy⟩ => ⟨hy, hm.symm⟩⟩

/-- Settles O44, a clause each from the first record, the order of the ranges, the last record and the one record. -/
theorem firstCodeZerosLastCodeOnes : Obligations.FirstCodeZerosLastCodeOnes := by
  rintro t c _ h rfl
  refine ⟨assignCodes_first h, fun i j v w hij hj hv hw => ?_, fun hsum => ?_, fun x l ht y => ?_⟩
  · have hends : v.EndsBefore w := assignCodes_endsBefore h hij hj hv hw
    exact (Nat.mul_lt_mul_of_pos_right (Nat.lt_add_one _) (Nat.two_pow_pos _)).trans_le hends
  · obtain ⟨hlast, hones⟩ := codeSum_last (sortedRecords_ascending t) ((recordSum_sortedRecords t).trans hsum)
    obtain ⟨w, hget, hlen, hval⟩ := assignCodes_record h hlast
    exact ⟨w, hget, by rw [hval, hones, hlen]⟩
  · have hrecs := sortedRecords_single ht
    split_ifs with hy
    · have hfirst := assignCodes_first h (by simp [hrecs])
      rw [hrecs] at hfirst
      exact hy ▸ hfirst
    · exact (assignCodes_sameDomain h y).mpr (by rw [ht, if_neg hy])

end Sys2Proof.Machine
end

section
/-! The commands of the canonical_huffman_assigner, one by one (42 R130, R131, R140 to R143), by the cases of their
effect. -/

namespace Sys2Proof

open Machine

theorem encode_cget (x : Symbol) : encode (.cget x) = 0x3200000000000000 ||| symField x :=
  (wordOf_eq_or 0x32 x 0).trans (by simp)

end Sys2Proof

namespace Sys2Proof.Machine

/-! ### `ASSIGN` -/

/-- Settles O40: padding multiplies exactly, and below the limit neither the increment nor the suffix loses a bit. -/
theorem codeRegisterNeverOverflows : Obligations.CodeRegisterNeverOverflows := by
  intro l w hl hc
  obtain ⟨hlen, hcode⟩ := padTo_maxLen hl hc
  refine ⟨_, rfl, hlen, hcode, ?_, fun htest => ?_⟩
  · have hle : w.length.toNat ≤ l.toNat := hl
    rw [hcode, ← pow_mul_pow_sub 2 hle]
    exact Nat.mul_le_mul_right _ hc
  · rw [codeLimit_le_iff hlen, Nat.not_le] at htest
    exact ⟨htest, code_succ_toNat htest, hlen, codeword_suffix_toNat htest⟩

/-- Settles O36, by the case of the effect of `ASSIGN` for an empty `LEN`. -/
theorem emptyLenFailsAssign : Obligations.EmptyLenFailsAssign := by
  intro s hs
  rw [allAbsent_iff_size] at hs
  exact ⟨_, (Effect.assignEmpty hs).exec_eq, ⟨rfl, rfl, rfl⟩, rfl, rfl, rfl⟩

/-- Settles O37: on a non-empty `LEN` the case of the effect of `ASSIGN` is decided by the Kraft inequality. -/
theorem assignSucceedsExactlyOnKraft : Obligations.AssignSucceedsExactlyOnKraft := by
  refine ⟨by decide, fun s hs => ?_⟩
  rw [allAbsent_iff_size] at hs
  rw [← assignCodes_isSome_iff]
  refine ⟨fun hk => ?_, fun hk => ?_⟩
  · obtain ⟨codes, ha⟩ := Option.isSome_iff_exists.mp hk
    refine ⟨_, codes, (Effect.assign hs ha).exec_eq, ha, rfl, allAbsent_empty, rfl, ⟨rfl, rfl⟩, ?_⟩
    rw [← (assignCodes_sameDomain ha).size_eq]
    rfl
  · have ha : assignCodes s.len = none := Option.not_isSome_iff_eq_none.mp hk
    exact ⟨_, (Effect.assignOverflow hs ha).exec_eq, ⟨rfl, rfl, rfl⟩, rfl, rfl, rfl⟩

/-- Settles O38, by the one successful case of the effect of `ASSIGN`. -/
theorem assignWritesOneCodewordPerLength : Obligations.AssignWritesOneCodewordPerLength := by
  intro s t hx hok
  obtain ⟨u, r, he, rfl⟩ := exec_inversion hx
  cases he with
  | assignEmpty => cases hok
  | assignOverflow => cases hok
  | assign h ha =>
    have hdom := assignCodes_sameDomain ha
    refine ⟨hdom, ha, allAbsent_empty, rfl, fun x l hl => ?_, rfl, hdom.size_eq⟩
    obtain ⟨w, hw, rfl⟩ := exists_codeword_of_get ha hl
    exact ⟨w, hw, rfl, (assignCodes_codeword ha hw).2⟩

/-! ### `CGET` -/

theorem dataOfSuffix_toNat (x : Suffix) : (dataOfSuffix x).toNat = x.toNat :=
  BitVec.toNat_setWidth_of_le (by decide)

/-- The suffix has 255 bits, so bit 255 of the data field is zero (42 R143). -/
theorem dataOfSuffix_msb (x : Suffix) : (dataOfSuffix x).getLsbD 255 = false := by
  simp [dataOfSuffix]

/-- Settles O45, by the one case of the effect of `CGET` and the two forms of its answer. -/
theorem cgetAnswersTheEntry : Obligations.CgetAnswersTheEntry := by
  intro x s
  refine ⟨encode_cget x, _, _, (Effect.cget x).exec_eq, rfl, ⟨rfl, rfl, rfl⟩, ⟨rfl, rfl⟩, ?_⟩
  cases s.code.get x with
  | none => exact ⟨rfl, fun _ => ⟨rfl, rfl, rfl⟩, nofun⟩
  | some v =>
    refine ⟨rfl, nofun, fun w hw => ?_⟩
    cases hw
    have hdata : (codeResponse (some v)).data.toNat = v.suffix.toNat := dataOfSuffix_toNat v.suffix
    refine ⟨rfl, rfl, hdata, dataOfSuffix_msb v.suffix, fun ⟨hlen, hsuffix⟩ => ⟨?_, hlen⟩⟩
    rw [hdata]
    exact hsuffix

end Sys2Proof.Machine
end

section
/-! The command `GEN` (43 R150 to R152, R155, R157): built lengths always have codes, so `GEN` is `BUILD` and then
`ASSIGN`, and what it leaves has the properties of the lengths and of the codes. -/

namespace Sys2Proof.Machine

/-! ### The codes of built lengths -/

/-- Lengths from the builder satisfy the Kraft inequality, so they have codes (43 R152). -/
theorem exists_codes_of_built {sel : Selector} (hsel : LegalSelector sel) (f : Table Count) :
    ∃ codes, assignCodes (buildLengthsWith sel f) = some codes :=
  Option.isSome_iff_exists.mp ((assignCodes_isSome_iff _).mpr (kraft_buildLengthsWith hsel f))

theorem assignCodes_built_ne_none {sel : Selector} (hsel : LegalSelector sel) (f : Table Count) :
    assignCodes (buildLengthsWith sel f) ≠ none := fun h0 => by
  obtain ⟨codes, ha⟩ := exists_codes_of_built hsel f
  cases h0.symm.trans ha

/-- The codes of the lengths built from a table stand for exactly the symbols of the table (43 R155). -/
theorem codes_sameDomain {f : Table Count} {codes : Table Codeword} (ha : assignCodes (buildLengths f) = some codes) :
    SameDomain codes f := fun x =>
  (assignCodes_sameDomain ha x).trans (buildLengthsWith_domain selectLowest_legal f x)

/-- The lengths of the codewords are the lengths the codes were assigned to (42 R142). -/
theorem assignCodes_get_map_len {t : Table Len} {c : Table Codeword} (h : assignCodes t = some c) (x : Symbol) :
    (c.get x).map Codeword.len = t.get x := by
  cases hc : c.get x with
  | none => exact ((assignCodes_sameDomain h x).mp hc).symm
  | some w => exact (assignCodes_codeword h hc).1.symm

/-- Assigning codes keeps the Kraft sum of the lengths. -/
theorem codeKraftSum_assignCodes {t : Table Len} {c : Table Codeword} (h : assignCodes t = some c) :
    codeKraftSum c = kraftSum t := by
  have hentries : t.entries = c.entries.map fun e => (e.1, e.2.len) := by
    simp only [Table.entries, ← assignCodes_get_map_len h, List.map_filterMap, Option.map_map, Function.comp_def]
  rw [kraftSum, hentries, List.map_map]
  rfl

/-! ### The effect of `GEN` -/

/-- On a non-empty `FREQ`, `GEN` has its successful effect, since built lengths never overflow (43 R150, R152). -/
theorem exists_gen_effect {s : State} (hf : s.freq.size ≠ 0) :
    ∃ codes, assignCodes (buildLengths s.freq) = some codes ∧
      Effect s .gen (s.generated codes) (numberResponse codes.size) := by
  obtain ⟨codes, ha⟩ := exists_codes_of_built selectLowest_legal s.freq
  exact ⟨codes, ha, .gen hf ha⟩

/-- Settles O47, by whether `FREQ` is empty: then both fail alike, else the built lengths have codes. -/
theorem genIsBuildThenAssign : Obligations.GenIsBuildThenAssign := by
  intro s
  by_cases hf : s.freq.size = 0
  · exact ⟨_, _, (Effect.buildEmpty hf).exec_eq, (Effect.genEmpty hf).exec_eq, fun _ => rfl, nofun⟩
  · obtain ⟨codes, ha, hgen⟩ := exists_gen_effect hf
    have hassign : Effect ((s.built (buildLengths s.freq)).respond (numberResponse (buildLengths s.freq).size)) .assign
        _ (numberResponse codes.size) := .assign (size_buildLengths_ne_zero hf) ha
    have hsize : codes.size = (buildLengths s.freq).size := (assignCodes_sameDomain ha).size_eq
    exact ⟨_, _, (Effect.build hf).exec_eq, hgen.exec_eq, fun hfail => absurd rfl hfail,
      fun _ => ⟨_, hassign.exec_eq, rfl, rfl, congrArg (some ∘ numberResponse) hsize⟩⟩

/-- Settles O48: each failing case would need built lengths without codes. -/
theorem builtLengthsNeverOverflow : Obligations.BuiltLengthsNeverOverflow := by
  refine ⟨fun sel f hsel => assignCodes_built_ne_none hsel f, fun s t hx => ?_,
    fun s t u v hb hok hlen hv => ?_⟩
  · obtain ⟨w, r, he, rfl⟩ := exec_inversion hx
    cases he with
    | genEmpty => nofun
    | genOverflow hf ha => exact absurd ha (assignCodes_built_ne_none selectLowest_legal s.freq)
    | gen => nofun
  · obtain ⟨w, r, he, rfl⟩ := exec_inversion hb
    cases he with
    | buildEmpty => cases hok
    | build hf =>
      obtain ⟨x, q, hassign, rfl⟩ := exec_inversion hv
      cases hassign with
      | assignEmpty => nofun
      | assignOverflow _ ha =>
        rw [hlen] at ha
        exact absurd ha (assignCodes_built_ne_none selectLowest_legal s.freq)
      | assign => nofun

/-- Settles O49: the codes have the lengths built, whose Kraft sum is 1 and whose weighted length is minimal. -/
theorem generatedTableIsCompleteAndOptimal : Obligations.GeneratedTableIsCompleteAndOptimal := by
  intro s t hx hok
  obtain ⟨u, r, he, rfl⟩ := exec_inversion hx
  cases he with
  | genEmpty => cases hok
  | genOverflow => cases hok
  | @gen codes hf ha =>
    refine ⟨codes_sameDomain ha, assignCodes_prefixFree ha, fun htwo => ?_, fun len hpos hkraft => ?_⟩
    · exact (codeKraftSum_assignCodes ha).trans (kraftSum_buildLengthsWith selectLowest_legal htwo)
    · refine le_of_eq_of_le (congrArg (weighted s.freq) (funext fun x => ?_))
        (builtLengthsAreOptimal selectLowest s.freq len selectLowest_legal hpos hkraft)
      have hlen : (codes.get x).map Codeword.len = (buildLengthsWith selectLowest s.freq).get x :=
        assignCodes_get_map_len ha x
      rw [State.respond_code, State.generated_code, lenAt, ← hlen]
      cases codes.get x <;> rfl

/-- Settles O46, by the two cases of the effect of `GEN` that occur. -/
theorem genReplacesCodeAndConsumesFreqAndLen : Obligations.GenReplacesCodeAndConsumesFreqAndLen := by
  refine ⟨by decide, fun s hs => ?_, fun s hs => (emptyFreqFailsBuildAndGen s hs).2⟩
  rw [allAbsent_iff_size] at hs
  obtain ⟨codes, ha, hgen⟩ := exists_gen_effect hs
  refine ⟨_, codes, hgen.exec_eq, ha, rfl, allAbsent_empty, allAbsent_empty, ⟨rfl, rfl⟩, ?_⟩
  rw [← (codes_sameDomain ha).size_eq]
  rfl

/-! ### The alphabet of one symbol -/

theorem Table.size_single {α : Type} {t : Table α} {x : Symbol} {v : α}
    (h : ∀ y, t.get y = if y = x then some v else none) : t.size = 1 := by
  have hwrite : t.size = (Table.empty.setAll [(x, v)]).size :=
    Table.size_congr fun y => by rw [h, Table.setAll_cons, Table.setAll_nil, Table.get_set, Table.get_empty]
  exact hwrite.trans (Table.entries_setAll_perm (by simp)).length_eq

/-- One symbol, whatever its count, gets the length 1, and no other symbol gets a length (41 R112, 43 R157). -/
theorem buildLengths_get_single {f : Table Count} {x : Symbol} {c : Count}
    (h : ∀ y, f.get y = if y = x then some c else none) (y : Symbol) :
    (buildLengths f).get y = if y = x then some 1 else none := by
  have hdom : (buildLengths f).get y = none ↔ f.get y = none := buildLengthsWith_domain selectLowest_legal f y
  cases hl : (buildLengths f).get y with
  | none =>
    have hy : y ≠ x := fun hy => by simpa [h, hy] using hdom.mp hl
    rw [if_neg hy]
  | some l =>
    have hy : y = x := by
      by_contra hy
      simp [hdom.mpr (by rw [h, if_neg hy])] at hl
    rw [if_pos hy, buildLengthsWith_single_eq_one selectLowest_legal (Table.size_single h) hl]

/-- Settles O50: the one length is 1 and a single record's code is 0; `CLR 1` leaves an empty alphabet. -/
theorem degenerateAlphabetsThroughThePipeline : Obligations.DegenerateAlphabetsThroughThePipeline := by
  refine ⟨fun s x c h => ?_, fun s => ?_⟩
  · have hf : s.freq.size ≠ 0 := by rw [Table.size_single h]; exact Nat.one_ne_zero
    obtain ⟨codes, ha, hgen⟩ := exists_gen_effect hf
    obtain ⟨-, -, -, hsingle⟩ := firstCodeZerosLastCodeOnes (buildLengths s.freq) codes _ ha rfl
    exact ⟨⟨_, (Effect.build hf).exec_eq, rfl, buildLengths_get_single h⟩,
      ⟨_, hgen.exec_eq, rfl, hsingle x 1 (buildLengths_get_single h), allAbsent_empty, allAbsent_empty⟩⟩
  · have hempty : ((s.clear 1).respond (Response.plain .ok)).freq.size = 0 := by simp [maskBit]
    exact ⟨_, _, (Effect.clr 1).exec_eq, (Effect.genEmpty hempty).exec_eq, rfl, rfl, rfl⟩

end Sys2Proof.Machine
end

section
/-! The pipeline on a text, `CLR 1`, one `CNT` per symbol, `GEN` (43 R153). -/

namespace Sys2Proof.Machine

/-! ### Counting with commands still to come -/

/-- Where every count fits, counting from an empty `FREQ` leaves the counts of the text. -/
theorem Counts.get_of_fit {text : List Symbol} {s t : State} {rs : List Response} (h : Counts text s t rs)
    (hs : s.freq = Table.empty) (hfit : ∀ y, text.count y ≤ 2 ^ 32 - 1) (y : Symbol) :
    t.freq.get y = if text.count y = 0 then none else some (BitVec.ofNat 32 (text.count y)) := by
  rw [h.freq, hs, Table.get_empty, addOccurrences, countOf_none, Nat.zero_add, Nat.min_eq_left (hfit y)]

/-- Where every count fits, counting from an empty `FREQ` is answered `OK` throughout (40 R86). -/
theorem Counts.all_ok {text : List Symbol} {s t : State} {rs : List Response} (h : Counts text s t rs)
    (hs : s.freq = Table.empty) (hfit : ∀ y, text.count y ≤ 2 ^ 32 - 1) : ∀ r ∈ rs, r.status = .ok := by
  have hfreq : ∀ y, t.freq.get y = addOccurrences none (text.count y) := fun y => by rw [h.freq, hs, Table.get_empty]
  have hok : okCount rs = rs.length := by
    have htotal := h.total
    rw [hs, totalCount_empty, Nat.zero_add, totalCount_eq_length hfreq hfit] at htotal
    rw [← htotal, h.length]
  simpa using List.length_filter_eq_length_iff.mp hok

/-- One `CNT` per symbol counts the text and leaves what the host planned after it. -/
theorem runSteps_counts_rest (text : List Symbol) {s : State} {rest : List HostInput}
    (h : s.inputs = presented (Pseudo.count text).expand ++ rest) :
    ∃ t rs, runSteps text.length s = .next t ∧ t.inputs = rest ∧ Counts text s t rs := by
  induction text generalizing s with
  | nil => exact ⟨s, [], runSteps_zero s, h, .nil s⟩
  | cons x text ih =>
    obtain ⟨t, r, hstep, hin, hx⟩ := step_cnt_counts h
    obtain ⟨u, rs, hrun, hin', htext⟩ := ih hin
    exact ⟨u, r :: rs, (runSteps_succ _ hstep).trans hrun, hin', hx.append htext⟩

/-! ### The last command -/

/-- A presented `GEN` on a non-empty `FREQ` is answered `OK` and leaves the codes of the lengths built. -/
theorem step_gen {s : State} {rest : List HostInput} (h : s.inputs = .command (encode .gen) :: rest)
    (hf : s.freq.size ≠ 0) :
    ∃ t r, step s = .next t ∧ t.inputs = rest ∧ t.responses = s.responses ++ [r] ∧ r.status = .ok ∧
      assignCodes (buildLengths s.freq) = some t.code := by
  obtain ⟨u, r, he, hstep, hin, hresp⟩ := step_effect h
  rw [← State.accept_freq s rest] at hf ⊢
  refine ⟨_, r, hstep, hin, hresp, ?_⟩
  cases he with
  | genEmpty h0 => exact absurd h0 hf
  | genOverflow _ ha => exact absurd ha (assignCodes_built_ne_none selectLowest_legal _)
  | gen _ ha => exact ⟨rfl, ha⟩

/-- Settles O53: `CLR 1` empties `FREQ`, counting leaves the counts of the text, and `GEN` leaves their codes. -/
theorem pipelineOnATextLeavesItsCodes : Obligations.PipelineOnATextLeavesItsCodes := by
  intro s text hne hfit
  have hinputs : (s.withProgram (Pseudo.pipe text).expand).inputs =
      .command (encode (.clr 1)) :: (presented (Pseudo.count text).expand ++ presented [.gen]) := by
    rw [← presented_append]
    rfl
  obtain ⟨u, r, he, hclr, hin, hresp⟩ := step_effect hinputs
  cases he
  obtain ⟨v, rs, hrun, hin', hc⟩ := runSteps_counts_rest text hin
  have hget := hc.get_of_fit rfl hfit
  have hmem : ∀ y, v.freq.get y = none ↔ y ∉ text := fun y => by
    rw [hget, ite_eq_left_iff, ← List.count_eq_zero]
    simp
  have hf : v.freq.size ≠ 0 := fun h0 => by
    obtain ⟨x, hx⟩ := List.exists_mem_of_ne_nil text hne
    exact (hmem x).mp (v.freq.size_eq_zero.mp h0 x) hx
  obtain ⟨t, q, hgen, hin'', hresp', hq, hcode⟩ := step_gen hin' hf
  refine ⟨t, Response.plain .ok :: (rs ++ [q]), ?_, hin'', ?_, by simp [hc.length], ?_, fun f hmap => ?_, fun y => ?_⟩
  · rw [runSteps_succ _ hclr, runSteps_add 1 hrun, runSteps_succ 0 hgen, runSteps_zero]
  · rw [hresp', hc.responses, hresp, State.withProgram_responses]
    simp
  · simpa [hq, Response.plain, or_imp, forall_and] using hc.all_ok rfl hfit
  · rw [buildLengths_congr fun y => (hmap y).trans (hget y).symm, hcode]
  · exact (codes_sameDomain hcode y).trans (hmem y)

end Sys2Proof.Machine
end

section
/-! The system commands `NOP` and `CLR` (44 R165, R166), by the cases of their effect. -/

namespace Sys2Proof

theorem encode_clr (m : BitVec 3) : encode (.clr m) = 0x0100000000000000 ||| m.setWidth 64 :=
  (wordOf_eq_or 0x01 0 (m.setWidth 32)).trans (by simp [Machine.symField])

end Sys2Proof

namespace Sys2Proof.Machine

/-! ### `NOP` -/

/-- Every field of a success without a value is zero (30_encoding R65, R66). -/
theorem Response.word_plain_ok : (Response.plain .ok).word = 0 := by
  simp [Response.word, Response.plain, Status.toCode]

/-- Settles O18, by the one case of the effect of `NOP`. -/
theorem nopDoesNothing : Obligations.NopDoesNothing :=
  ⟨by decide, fun _ =>
    ⟨_, Effect.nop.exec_eq, ⟨rfl, rfl, rfl⟩, ⟨rfl, rfl⟩, rfl, congrArg some Response.word_plain_ok⟩⟩

/-! ### `CLR` -/

/-- A table whose mask bit is set is empty after `State.clear`. -/
theorem allAbsent_of_selected {α : Type} {t : Table α} {b : Bool} (h : b = true) :
    AllAbsent (if b then Table.empty else t) := by
  rw [if_pos h]
  exact allAbsent_empty

/-- Settles O19: a selected table is emptied, an unselected one is outside the write set, and clearing twice is
clearing once. -/
theorem clrEmptiesTheSelectedTables : Obligations.ClrEmptiesTheSelectedTables := by
  intro m s
  have he : Effect s (.clr m) (s.clear m) (Response.plain .ok) := .clr m
  have htwice : exec (.clr m) ((s.clear m).respond (Response.plain .ok)) =
      .next ((s.clear m).respond (Response.plain .ok)) := by
    simp [(Effect.clr m).exec_eq]
  exact ⟨encode_clr m, _, he.exec_eq, allAbsent_of_selected, he.freq_of_not_writesFreq,
    allAbsent_of_selected, he.len_of_not_writesLen, allAbsent_of_selected, he.code_of_not_writesCode,
    rfl, he.sameHost, htwice⟩

end Sys2Proof.Machine
end

section
/-! Failing commands (60_exceptions R176, R177, R185): the table of causes, that a command fails exactly on its cause,
and that a failure leaves nothing but its response, which no command reads. -/

namespace Sys2Proof.Machine

/-! ### The causes -/

/-- `Failure s i e`: the command `i` meets in state `s` the cause of the failure `e` (60_exceptions R177). -/
inductive Failure (s : State) : Instr → Status → Prop
  | buildEmpty (h : AllAbsent s.freq) : Failure s .build .emptyAlphabet
  | genEmpty (h : AllAbsent s.freq) : Failure s .gen .emptyAlphabet
  | assignEmpty (h : AllAbsent s.len) : Failure s .assign .emptyAlphabet
  | cntFull {x : Symbol} {c : Count} (h : s.freq.get x = some c) (hc : c.toNat = 2 ^ 32 - 1) :
      Failure s (.cnt x) .countOverflow
  | assignOverflow (h : ¬ Kraft s.len) : Failure s .assign .codeOverflow
  | lsetZero (x : Symbol) : Failure s (.lset x 0) .badOperand

theorem countResponse_status (c : Option Count) : (countResponse c).status = .ok := by cases c <;> rfl

theorem lenResponse_status (l : Option Len) : (lenResponse l).status = .ok := by cases l <;> rfl

theorem codeResponse_status (w : Option Codeword) : (codeResponse w).status = .ok := by cases w <;> rfl

/-- An empty `LEN` satisfies the Kraft inequality, so it never fails with `CODE_OVERFLOW`. -/
theorem kraft_of_size_eq_zero {t : Table Len} (h : t.size = 0) : Kraft t := by
  simp [Kraft, kraftSum, List.length_eq_zero_iff.mp h]

/-- A command succeeds, or it meets a cause and then leaves the tables and answers the status alone (R176, R184). -/
theorem Effect.ok_or_failure {s u : State} {i : Instr} {r : Response} (h : Effect s i u r) :
    r.status = .ok ∨ ∃ e, Failure s i e ∧ u = s ∧ r = Response.plain e := by
  cases h with
  | fget x => exact .inl (countResponse_status _)
  | lget x => exact .inl (lenResponse_status _)
  | cget x => exact .inl (codeResponse_status _)
  | nop | clr | cntAbsent | cntBelow | fset | build | lset | assign | gen => exact .inl rfl
  | cntFull h => exact .inr ⟨_, .cntFull h rfl, rfl, rfl⟩
  | buildEmpty h => exact .inr ⟨_, .buildEmpty ((allAbsent_iff_size _).mpr h), rfl, rfl⟩
  | lsetZero x => exact .inr ⟨_, .lsetZero x, rfl, rfl⟩
  | assignEmpty h => exact .inr ⟨_, .assignEmpty ((allAbsent_iff_size _).mpr h), rfl, rfl⟩
  | assignOverflow h ha =>
    exact .inr ⟨_, .assignOverflow fun hk => by simpa [ha] using (assignCodes_isSome_iff _).mpr hk, rfl, rfl⟩
  | genEmpty h => exact .inr ⟨_, .genEmpty ((allAbsent_iff_size _).mpr h), rfl, rfl⟩
  | genOverflow _ ha => exact absurd ha (assignCodes_built_ne_none selectLowest_legal s.freq)

/-- On its cause a command fails: it changes no table and answers the status alone (R176). -/
theorem Failure.effect {s : State} {i : Instr} {e : Status} (h : Failure s i e) :
    Effect s i s (Response.plain e) := by
  cases h with
  | buildEmpty h => exact .buildEmpty ((allAbsent_iff_size _).mp h)
  | genEmpty h => exact .genEmpty ((allAbsent_iff_size _).mp h)
  | assignEmpty h => exact .assignEmpty ((allAbsent_iff_size _).mp h)
  | @cntFull x c h hc =>
    have hmax : c = Config.freqMax := BitVec.eq_of_toNat_eq hc
    exact .cntFull (hmax ▸ h)
  | assignOverflow h =>
    refine .assignOverflow (mt kraft_of_size_eq_zero h) (Option.not_isSome_iff_eq_none.mp ?_)
    rwa [assignCodes_isSome_iff]
  | lsetZero x => exact .lsetZero x

theorem Failure.exec_eq {s : State} {i : Instr} {e : Status} (h : Failure s i e) :
    exec i s = .next (s.respond (Response.plain e)) := h.effect.exec_eq

theorem Failure.answers {s t : State} {i : Instr} {e : Status} (h : Failure s i e) (hx : exec i s = .next t) :
    Answers t e := by
  rw [h.exec_eq] at hx
  cases hx
  rfl

theorem Failure.ne_ok {s : State} {i : Instr} {e : Status} (h : Failure s i e) : e ≠ .ok := by
  rintro rfl
  cases h

/-! ### Failing executions -/

/-- A status other than `OK` comes from a cause, and nothing else is written. -/
theorem exec_failure_inversion {i : Instr} {s t : State} (hx : exec i s = .next t) (hfail : t.status ≠ some .ok) :
    ∃ e, Failure s i e ∧ t = s.respond (Response.plain e) := by
  obtain ⟨u, r, he, rfl⟩ := exec_inversion hx
  rcases he.ok_or_failure with hok | ⟨e, hcause, rfl, rfl⟩
  · exact absurd (congrArg some hok) hfail
  · exact ⟨e, hcause, rfl⟩

/-- A command answers a failure exactly on its cause (R177). -/
theorem exec_status_eq_iff {i : Instr} {s t : State} {e : Status} (hx : exec i s = .next t) (he : e ≠ .ok) :
    t.status = some e ↔ Failure s i e := by
  constructor
  · intro hst
    obtain ⟨e', hcause, rfl⟩ := exec_failure_inversion hx (by simpa [hst] using he)
    cases hst
    exact hcause
  · exact fun hcause => congrArg (Option.map Response.status) (hcause.answers hx)

theorem exec_status_ne_illegalCommand {i : Instr} {s t : State} (hx : exec i s = .next t) :
    t.status ≠ some .illegalCommand := fun hst =>
  nomatch (exec_status_eq_iff hx (by decide)).mp hst

/-- No command reads the response on the port: what it does is what it would have done before that was offered. -/
theorem exec_respond (i : Instr) (s : State) (r : Response) : exec i (s.respond r) = exec i s := by
  cases i <;> rfl

/-! ### The causes of each status -/

theorem failure_emptyAlphabet_iff {s : State} {i : Instr} :
    Failure s i .emptyAlphabet ↔
      ((i = .build ∨ i = .gen) ∧ AllAbsent s.freq) ∨ (i = .assign ∧ AllAbsent s.len) := by
  constructor
  · rintro (h | h | h)
    · exact .inl ⟨.inl rfl, h⟩
    · exact .inl ⟨.inr rfl, h⟩
    · exact .inr ⟨rfl, h⟩
  · rintro (⟨rfl | rfl, h⟩ | ⟨rfl, h⟩)
    · exact .buildEmpty h
    · exact .genEmpty h
    · exact .assignEmpty h

theorem failure_countOverflow_iff {s : State} {i : Instr} :
    Failure s i .countOverflow ↔ ∃ x c, i = .cnt x ∧ s.freq.get x = some c ∧ c.toNat = 2 ^ 32 - 1 := by
  constructor
  · intro h
    cases h with
    | cntFull h hc => exact ⟨_, _, rfl, h, hc⟩
  · rintro ⟨x, c, rfl, h, hc⟩
    exact .cntFull h hc

theorem failure_codeOverflow_iff {s : State} {i : Instr} :
    Failure s i .codeOverflow ↔ i = .assign ∧ ¬ Kraft s.len := by
  constructor
  · intro h
    cases h with
    | assignOverflow h => exact ⟨rfl, h⟩
  · rintro ⟨rfl, h⟩
    exact .assignOverflow h

theorem failure_badOperand_iff {s : State} {i : Instr} : Failure s i .badOperand ↔ ∃ x, i = .lset x 0 := by
  constructor
  · intro h
    cases h with
    | lsetZero x => exact ⟨x, rfl⟩
  · rintro ⟨x, rfl⟩
    exact .lsetZero x

/-! ### The obligations -/

/-- A presented word is answered `ILLEGAL_COMMAND` exactly when it does not decode (30_encoding R68). -/
theorem step_status_illegalCommand_iff {s : State} {w : CmdWord} {rest : List HostInput}
    (h : s.inputs = .command w :: rest) :
    ∃ t, step s = .next t ∧ (t.status = some .illegalCommand ↔ IsIllegal w) := by
  match hd : decode w with
  | .error e => exact ⟨_, step_illegal h hd, fun _ => ⟨e, hd⟩, fun _ => rfl⟩
  | .ok i =>
    obtain ⟨u, r, -, hx⟩ := exec_effect i (s.accept rest)
    refine ⟨_, (step_command h hd).trans hx, fun hst => absurd hst (exec_status_ne_illegalCommand hx), ?_⟩
    rintro ⟨e, he⟩
    cases hd.symm.trans he

/-- Settles O55: each status other than `OK` is answered exactly on a cause of the table, whose lines for that status
are the commands and conditions of R177. -/
theorem eachFailureHasItsCause : Obligations.EachFailureHasItsCause := by
  refine ⟨fun i s => ?_, fun s w rest => step_status_illegalCommand_iff, rfl, rfl, rfl, rfl, rfl⟩
  obtain ⟨u, r, -, hx⟩ := exec_effect i s
  refine ⟨_, hx, ?_, ?_, ?_, ?_, exec_status_ne_illegalCommand hx, fun e hst he => ?_⟩
  · exact (exec_status_eq_iff hx (by decide)).trans failure_emptyAlphabet_iff
  · exact (exec_status_eq_iff hx (by decide)).trans failure_countOverflow_iff
  · exact (exec_status_eq_iff hx (by decide)).trans failure_codeOverflow_iff
  · exact (exec_status_eq_iff hx (by decide)).trans failure_badOperand_iff
  · exact ((exec_status_eq_iff hx he).mp hst).answers hx

/-- Settles O54: a failure is the response on the port and nothing else. -/
theorem failingCommandWritesNothing : Obligations.FailingCommandWritesNothing := by
  intro i s t hx hfail
  obtain ⟨e, hcause, rfl⟩ := exec_failure_inversion hx hfail
  exact ⟨⟨rfl, rfl, rfl⟩, ⟨rfl, rfl⟩, e, hcause.ne_ok, rfl⟩

/-- Settles O56: a failure and a `NOP` leave states that differ in the response on the port only. -/
theorem failureIsLikeNop : Obligations.FailureIsLikeNop := by
  intro i s t hx hfail
  obtain ⟨e, -, rfl⟩ := exec_failure_inversion hx hfail
  refine ⟨(exec_respond i s _).trans hx, _, Effect.nop.exec_eq, fun j => ?_⟩
  obtain ⟨u, r, -, hj⟩ := exec_effect j s
  exact ⟨_, (exec_respond j s _).trans hj, (exec_respond j s _).trans hj⟩

end Sys2Proof.Machine
end

section
/-! Reset and repetition (70 R200 to R202, R206): a reset and `CLR 7` leave the tables of `State.reset`, and a command
that has consumed its input fails when it is repeated. -/

namespace Sys2Proof.Machine

/-! ### Reset -/

theorem State.resetEvent_sameTables (s : State) : SameTables State.reset s.resetEvent := ⟨rfl, rfl, rfl⟩

/-- The mask 7 selects all three tables (44 R166), so `CLR 7` leaves what a reset leaves (70 R201). -/
theorem State.clear_seven_sameTables (s : State) : SameTables State.reset (s.clear 7) := by
  simp [SameTables, maskBit]

/-- Settles O10, by the reset case of the step and the effect of `CLR 7`. -/
theorem resetEventEmptiesTheTables : Obligations.ResetEventEmptiesTheTables := by
  refine ⟨fun s rest h => ?_, fun s => ?_⟩
  · exact ⟨_, step_reset h, (s.withInputs rest).resetEvent_sameTables, by simp [State.rspValid],
      by simp [State.cmdReady], by simp, by simp⟩
  · have he : Effect s (.clr 7) (s.clear 7) (Response.plain .ok) := .clr 7
    exact ⟨_, he.exec_eq, s.clear_seven_sameTables, rfl, he.sameHost⟩

/-! ### Immediate repetition -/

section
variable {s u : State} {i : Instr} {r : Response}

/-- A successful `BUILD` or `GEN` consumes `FREQ`. -/
theorem Effect.allAbsent_freq_of_ok (h : Effect s i u r) (hi : i = .build ∨ i = .gen) (hok : r.status = .ok) :
    AllAbsent u.freq := by
  rcases hi with rfl | rfl
  · cases h with
    | buildEmpty => cases hok
    | build => exact allAbsent_empty
  · cases h with
    | genEmpty | genOverflow => cases hok
    | gen => exact allAbsent_empty

/-- A successful `ASSIGN` or `GEN` leaves `LEN` empty. -/
theorem Effect.allAbsent_len_of_ok (h : Effect s i u r) (hi : i = .assign ∨ i = .gen) (hok : r.status = .ok) :
    AllAbsent u.len := by
  rcases hi with rfl | rfl
  · cases h with
    | assignEmpty | assignOverflow => cases hok
    | assign => exact allAbsent_empty
  · cases h with
    | genEmpty | genOverflow => cases hok
    | gen => exact allAbsent_empty

end

/-- On its cause a command answers the failure and keeps the tables (60_exceptions R176). -/
theorem Failure.exec_keeps_tables {s : State} {i : Instr} {e : Status} (h : Failure s i e) :
    ∃ u, exec i s = .next u ∧ Answers u e ∧ SameTables s u :=
  ⟨_, h.exec_eq, h.answers h.exec_eq, rfl, rfl, rfl⟩

/-- Settles O58: the success has emptied the table that the repetition reads, which is the cause of its failure. -/
theorem immediateRepetitionFails : Obligations.ImmediateRepetitionFails := by
  refine ⟨fun i s t hi hx hok => ?_, fun i s t hi hx hok => ?_⟩ <;> obtain ⟨u, r, he, rfl⟩ := exec_inversion hx
  · have hfreq : AllAbsent u.freq := he.allAbsent_freq_of_ok hi (Option.some.inj hok)
    exact (Failure.buildEmpty hfreq).exec_keeps_tables
  · have hlen : AllAbsent u.len := he.allAbsent_len_of_ok hi (Option.some.inj hok)
    exact (Failure.assignEmpty hlen).exec_keeps_tables

end Sys2Proof.Machine
end
